-- ==== Sys2Proof/Word.lean ====
section
/-! DEFINITION. The word types of the TGX codec block: a byte of a TGX buffer, a 16-bit colour word
(or header field), and the RGBA8 pixel (`00_scope.md` R6, R7, R9). -/

namespace Sys2Proof

/-- A byte of a TGX buffer, or one 8-bit channel of a pixel (R6). -/
abbrev Byte := BitVec 8

/-- A 16-bit value: a colour word `0RRRRRGGGGGBBBBB` (R62) or a header dimension (R71). -/
abbrev Word := BitVec 16

/-- A pixel `{r, g, b, a}` of four `u8` channels (R7, R9). -/
structure Pixel where
  r : Byte
  g : Byte
  b : Byte
  a : Byte
  deriving DecidableEq, Repr

end Sys2Proof
end

