-- ==== Sys2Proof/Config.lean ====
section
/-! DEFINITION. The constants of the format, the parameter of the model (`00_scope.md` R5) and the free
values: constants with no body for what the spec leaves open (log entries 3, 5 and 6). -/

namespace Sys2Proof

/-- The two readings of `ENC_SINGLE_OPAQUE` (R5, R137; `92_eei_decisions.md` D6): the token kind the encoder
emits for an opaque run of exactly one pixel. -/
inductive SingleOpaque where
  | pixelStream
  | repeatRun
  deriving DecidableEq, Repr

namespace Config

/-- `HEADER_BYTES`: the length of the header, and the first offset of the token stream (R5). -/
abbrev headerBytes : Nat := 8

/-- `MAX_RUN`: the largest run length of one token (R5). -/
abbrev maxRun : Nat := 32

/-- `LEN_BIAS`: run length = field + 1 (R5, R64). -/
abbrev lenBias : Nat := 1

/-- `WORD_BYTES`: the length of a colour word in the stream (R5). -/
abbrev wordBytes : Nat := 2

/-- The largest dimension the header's `DIM_BITS` = 16 bit fields can hold (R5, R131). -/
abbrev maxDim : Nat := 65535

/-- `ALPHA_OPAQUE`: the alpha of every pixel the decoder writes (R5). -/
abbrev alphaOpaque : Byte := 255

/-- `BLANK`: the value of every raster pixel before decode (R5, R45). -/
abbrev blank : Pixel := ⟨0, 0, 0, 0⟩

/-- `NEWLINE_FIELD`: bits 4:0 of the `NewLine` control byte the encoder emits (R5, R142; D7). -/
abbrev newLineField : BitVec 5 := 0

/-- The default of `ENC_SINGLE_OPAQUE` (R5, D6). The parameter itself stands in `State`, where no step
changes it, so that every claim covers both values and both can be run. -/
abbrev encSingleOpaqueDefault : SingleOpaque := .pixelStream

/-- FREE VALUE (log entry 3): which unit steps next when a decode pass and an encode pass run at once. The spec
gives no order between the two units (R10). The arguments are the host epoch, `DEC.OFF`, `ENC.Y` and `ENC.X`: they
name a point no pair of passes visits twice, so every interleaving is some value of this function. -/
opaque decFirst : (epoch off y x : Nat) → Bool

/-- FREE VALUE (log entries 5 and 6): a register that 16 bits hold and to which the spec gives no value after a pass that
faulted at its start (R163, R201); `epoch` is the host operation, `reg` which register. -/
opaque unspecWord : (epoch reg : Nat) → Word

/-- FREE VALUE (log entries 5 and 6): as `unspecWord`, for a register held as a natural number. -/
opaque unspecNat : (epoch reg : Nat) → Nat

end Config

end Sys2Proof
end

