-- ==== Sys2Proof/Syntax.lean ====
section
/-! DEFINITION. The instruction set: one constructor for each row of `spec/opcode_table.json` (`30_encoding.md` R66).
An instruction is a token's control byte read; its payload, if it has one, stands after the control byte in `IB` and is
fetched by the meaning (R65, R110, R112), which is where the spec tests that it is complete. -/

namespace Sys2Proof

/-- The eight rows of the opcode map (R66). `n` is the run length of R64, a natural number; `f` is the raw `len` field,
kept only where the spec gives the field no meaning (R68, R114). -/
inductive Instr where
  /-- `PixelStream`, opcode 0: `n` pixels, each with its own colour word (R110). -/
  | pixelStream (n : Nat)
  /-- `Transparent`, opcode 1: skips `n` pixels (R111). -/
  | transparent (n : Nat)
  /-- `Repeat`, opcode 2: one colour word drawn `n` times (R112). -/
  | repeatRun (n : Nat)
  /-- Opcode 3, invalid (R114). -/
  | invalid3 (f : BitVec 5)
  /-- `NewLine`, opcode 4: the column to 0, the row plus 1; the field is ignored (R113). -/
  | newLine (f : BitVec 5)
  /-- Opcode 5, invalid (R114). -/
  | invalid5 (f : BitVec 5)
  /-- Opcode 6, invalid (R114). -/
  | invalid6 (f : BitVec 5)
  /-- Opcode 7, invalid (R114). -/
  | invalid7 (f : BitVec 5)
  deriving DecidableEq, Repr

end Sys2Proof
end

