-- ==== Sys2Proof/WellFormed.lean ====
section
/-! DEFINITION. When a term of `Instr` is an instruction of the format: its run length is one a control byte can hold
(`30_encoding.md` R64, R72). -/

namespace Sys2Proof

/-- A run length lies in `[1, 32]` (R64, R171). -/
abbrev runLengthOk (n : Nat) : Prop := 1 ≤ n ∧ n ≤ Config.maxRun

/-- The constraints of the syntax table (R72): `1 ≤ n ≤ 32` for the three run tokens; `NewLine` and the invalid opcodes
take every value of the 5-bit field. -/
abbrev Instr.wellFormed : Instr → Prop
  | .pixelStream n => runLengthOk n
  | .transparent n => runLengthOk n
  | .repeatRun n => runLengthOk n
  | .invalid3 _ => True
  | .newLine _ => True
  | .invalid5 _ => True
  | .invalid6 _ => True
  | .invalid7 _ => True

end Sys2Proof
end

