-- ==== Sys2Proof/Decode.lean ====
section
/-! DEFINITION. The control byte and the tokens: the decoder, total on any byte, and after it the encoder
(`30_encoding.md` R60 to R72). Byte order is decided here once: `lo8`, `hi8`, `le16` (`20_memory.md` R47). -/

namespace Sys2Proof

/-! ### Byte order (R7, R47) -/

/-- `lo8(w) = w[7:0]` (R7). -/
def lo8 (w : Word) : Byte := w.extractLsb' 0 8

/-- `hi8(w) = w[15:8]` (R7). -/
def hi8 (w : Word) : Byte := w.extractLsb' 8 8

/-- `LE16(b0, b1) = b0 + 256 * b1` (R7, R47): the byte at the lower offset is the less significant. -/
def le16 (b0 b1 : Byte) : Word := b1 ++ b0

/-! ### The control byte (R61) -/

/-- The opcode `c[7:5]` (R61). -/
def opcodeOf (c : Byte) : BitVec 3 := c.extractLsb' 5 3

/-- The `len` field `c[4:0]` (R61). -/
def lenField (c : Byte) : BitVec 5 := c.extractLsb' 0 5

/-- The run length `n = zext(c[4:0]) + 1`, on naturals (R64, R161). -/
def runLength (c : Byte) : Nat := (lenField c).toNat + Config.lenBias

/-- The instruction of a control byte: the complete map of the 3-bit opcode, total on the 256 bytes (R66). -/
def decode (c : Byte) : Instr :=
  match (opcodeOf c).toNat with
  | 0 => .pixelStream (runLength c)
  | 1 => .transparent (runLength c)
  | 2 => .repeatRun (runLength c)
  | 3 => .invalid3 (lenField c)
  | 4 => .newLine (lenField c)
  | 5 => .invalid5 (lenField c)
  | 6 => .invalid6 (lenField c)
  | _ => .invalid7 (lenField c)

/-- Why bytes give no instruction or no token. -/
inductive DecodeReject where
  /-- No byte is left: there is no control byte to read (R102). -/
  | noControlByte
  /-- The payload runs past the end of the bytes (R181); a running decoder raises `TruncatedInputError` here. -/
  | truncated
  /-- The opcode is invalid (R67), so the token has no length; a running decoder raises `UnknownOpcodeError`. -/
  | invalidOpcode
  deriving DecidableEq, Repr

/-- The instruction at the head of a byte sequence: its control byte alone decides (R63). -/
def decodeBytes : List Byte → Except DecodeReject Instr
  | [] => .error .noControlByte
  | c :: _ => .ok (decode c)

/-- The bytes of an instruction as `spec/opcode_table.json` numbers them: byte `k` is bits `8k+7 .. 8k` of `w`. The
first `nbits / 8` bytes are given; every later byte up to the longest token's 65 is 0. -/
def tableBytes (nbits w : Nat) : List Byte :=
  (List.range 65).map fun k => if k < nbits / 8 then BitVec.ofNat 8 (w / 2 ^ (8 * k)) else 0

/-- The instruction the decoder reads from a row's bits. -/
def decodeTableWord (nbits w : Nat) : Option Instr :=
  match decodeBytes (tableBytes nbits w) with
  | .ok i => some i
  | .error _ => none

/-! ### The encoder of instructions (R61, R66, R72) -/

/-- A control byte from its opcode and its `len` field (R61). -/
def controlByte (op : BitVec 3) (f : BitVec 5) : Byte := op ++ f

/-- The `len` field of a run length, `c[4:0] = n - 1` (R64). -/
def fieldOf (n : Nat) : BitVec 5 := BitVec.ofNat 5 (n - Config.lenBias)

/-- The control byte of an instruction (R72). -/
def encodeByte : Instr → Byte
  | .pixelStream n => controlByte 0 (fieldOf n)
  | .transparent n => controlByte 1 (fieldOf n)
  | .repeatRun n => controlByte 2 (fieldOf n)
  | .invalid3 f => controlByte 3 f
  | .newLine f => controlByte 4 f
  | .invalid5 f => controlByte 5 f
  | .invalid6 f => controlByte 6 f
  | .invalid7 f => controlByte 7 f

/-- The words (here: bytes) of an instruction: its control byte. -/
def encode (i : Instr) : List Byte := [encodeByte i]

/-! ### Whole tokens: the control byte with its payload (R60, R65, R72) -/

/-- How many colour words follow the control byte (R60: formats `CS`, `CW`, `C`). -/
def payloadWords : Instr → Nat
  | .pixelStream n => n
  | .transparent _ => 0
  | .repeatRun _ => 1
  | .invalid3 _ => 0
  | .newLine _ => 0
  | .invalid5 _ => 0
  | .invalid6 _ => 0
  | .invalid7 _ => 0

/-- Whether the opcode is one of the four defined ones (R66, R67). -/
def isValidOpcode : Instr → Bool
  | .pixelStream _ => true
  | .transparent _ => true
  | .repeatRun _ => true
  | .invalid3 _ => false
  | .newLine _ => true
  | .invalid5 _ => false
  | .invalid6 _ => false
  | .invalid7 _ => false

/-- The length of a token in bytes, from the control byte alone (R60, R63): `1 + 2n`, 1, 3 or 1. An invalid opcode has no
length and needs none (R63): DESIGN CHOICE (log entry 19), this total function answers 1 there, a number without meaning
that no meaning, no step and no statement uses. -/
def tokenLength (i : Instr) : Nat := 1 + Config.wordBytes * payloadWords i

/-- A token: an instruction and the colour words of its payload (R60, R72). -/
structure Token where
  instr : Instr
  payload : List Word
  deriving DecidableEq, Repr

/-- A token of the syntax of R72: a valid opcode, a run length in `[1, 32]`, a payload of the right length. -/
abbrev Token.wellFormed (t : Token) : Prop :=
  isValidOpcode t.instr = true ∧ t.instr.wellFormed ∧ t.payload.length = payloadWords t.instr

/-- A colour word as it stands in the stream: low byte, then high byte (R47, R62). -/
def wordBytes (w : Word) : List Byte := [lo8 w, hi8 w]

/-- The bytes of a token (R60, R72): the control byte, then the payload, each word little-endian. -/
def encodeToken (t : Token) : List Byte := encodeByte t.instr :: t.payload.flatMap wordBytes

/-- The bytes of a sequence of tokens. -/
def encodeTokens (ts : List Token) : List Byte := ts.flatMap encodeToken

/-- `k` colour words from the head of a byte sequence, and the bytes after them; none if the bytes end first. -/
def takeWords : Nat → List Byte → Option (List Word × List Byte)
  | 0, bs => some ([], bs)
  | k + 1, b0 :: b1 :: bs =>
    match takeWords k bs with
    | some (ws, rest) => some (le16 b0 b1 :: ws, rest)
    | none => none
  | _ + 1, _ => none

/-- The token at the head of a byte sequence and the bytes after it (R63): walking the stream token by token. -/
def decodeToken (bs : List Byte) : Except DecodeReject (Token × List Byte) :=
  match bs with
  | [] => .error .noControlByte
  | c :: rest =>
    let i := decode c
    if isValidOpcode i = true then
      match takeWords (payloadWords i) rest with
      | some (ws, rest') => .ok (⟨i, ws⟩, rest')
      | none => .error .truncated
    else .error .invalidOpcode

end Sys2Proof
end

