-- ==== Sys2Proof/Machine/State.lean ====
section
/-! DEFINITION. The state of the block as plain data: the registers of the two units (`10_state.md` R11 to R24), the four
memories (R26), the parameter of R5, and the model's own two fields (log entries 2, 3). -/

namespace Sys2Proof.Machine

/-- `STATUS` of a unit (R16, R24). -/
inductive Status where
  /-- No pass has been started since reset. -/
  | idle
  /-- A pass is in progress. -/
  | running
  /-- The pass has ended without error; its result stands. -/
  | done
  /-- An error was raised; no further step exists. -/
  | faulted
  deriving DecidableEq, Repr

/-- `ERR_CAUSE`: which error is latched (R17, R180). Its number is `ErrCause.code` (R187). -/
inductive ErrCause where
  | noError
  | truncatedInput
  | unknownOpcode
  | outOfBoundsPixel
  | invalidArgument
  | invalidHeader
  deriving DecidableEq, Repr

/-- An error as it is raised (R180): only `UnknownOpcodeError` carries a value, the 3-bit opcode. -/
inductive Error where
  | truncatedInput
  | unknownOpcode (opcode : BitVec 3)
  | outOfBoundsPixel
  | invalidArgument
  | invalidHeader
  deriving DecidableEq, Repr

/-- `ENC.RUN_KIND`: the class of the accumulating run, `none` when the accumulator is empty (R20). -/
inductive RunKind where
  | none
  | opaqueRun
  | transparentRun
  deriving DecidableEq, Repr

/-- A memory of bytes: address and byte pairs, addresses strictly rising, no byte equal to what an unlisted
address reads as (0: log entry 8). -/
abbrev Memory := List Host.Cell

/-- A byte buffer, `IB` or `OB`: `len` bytes at offsets `0 .. len - 1` (R41, R42), held sparsely. -/
structure Buffer where
  len : Nat
  cells : Memory
  deriving DecidableEq, Repr

/-- A raster image (R44): its dimensions and its pixels, the pixel at `(x, y)` under the key `y * width + x`; an unlisted
pixel reads as `BLANK` (R45; log entry 9). -/
structure Raster where
  width : Nat
  height : Nat
  cells : List (Nat × Pixel)
  deriving DecidableEq, Repr

/-- The decoder's registers (R11 to R17). -/
structure DecUnit where
  /-- `DEC.W` (R11). -/
  w : Word
  /-- `DEC.H` (R11). -/
  h : Word
  /-- `DEC.X` (R12). -/
  x : Nat
  /-- `DEC.Y` (R13). -/
  y : Nat
  /-- `DEC.OFF`, the program counter (R14). -/
  off : Nat
  /-- `DEC.STATUS` (R16). -/
  status : Status
  /-- `DEC.ERR_CAUSE` (R17). -/
  errCause : ErrCause
  /-- `DEC.ERR_INFO` (R17). -/
  errInfo : BitVec 3
  deriving DecidableEq, Repr

/-- The encoder's registers (R18 to R24). -/
structure EncUnit where
  /-- `ENC.W` (R18). -/
  w : Nat
  /-- `ENC.H` (R18). -/
  h : Nat
  /-- `ENC.X` (R19). -/
  x : Nat
  /-- `ENC.Y` (R19). -/
  y : Nat
  /-- `ENC.RUN_KIND` (R20). -/
  runKind : RunKind
  /-- `ENC.RUN_LEN` (R21). -/
  runLen : Nat
  /-- `ENC.RUN_BUF[0..31]` (R22). -/
  runBuf : Vector Word 32
  /-- `ENC.STATUS` (R24). -/
  status : Status
  /-- `ENC.ERR_CAUSE` (R24). -/
  errCause : ErrCause
  deriving DecidableEq, Repr

/-- The host's operations on the block (R194, R200, R211). -/
inductive HostOp where
  /-- `reset` (R200). -/
  | reset
  /-- `start(DEC, IB)` with the buffer the host placed (R201, R204). -/
  | startDecode (bytes : List Byte)
  /-- `start(ENC, SRC)` with the raster the host placed (R202, R205). -/
  | startEncode (raster : Raster)
  deriving DecidableEq, Repr

/-- The whole machine. -/
structure State where
  /-- The decoder's registers. -/
  dec : DecUnit
  /-- The encoder's registers. -/
  enc : EncUnit
  /-- `IB`, the decoder's input buffer (R41). -/
  ib : Buffer
  /-- `IMG`, the decoder's raster (R44, R45). -/
  img : Raster
  /-- `SRC`, the encoder's raster (R44). -/
  src : Raster
  /-- `OB`, the encoder's output buffer (R23, R42). -/
  ob : Buffer
  /-- `ENC_SINGLE_OPAQUE`, the parameter of R5: no step changes it. -/
  encSingleOpaque : SingleOpaque
  /-- MODEL: the host operations not yet performed, the next one first (log entry 2). -/
  host : List HostOp
  /-- MODEL: how many host operations have been performed, the index of the free values (log entries 3, 5, 6). -/
  epoch : Nat
  deriving DecidableEq, Repr

/-- Why the machine stops. -/
inductive Fault where
  /-- Raised by `step` alone, where no unit is `Running` and no host operation is pending: no step exists in `Idle`,
  `Done` or `Faulted` (R16, R188, R211). Safe: the spec gives the block nothing to do there (log entry 14). -/
  | noStep
  deriving DecidableEq, Repr

/-- Why the model gives a situation no meaning. -/
inductive Refusal where
  /-- An instruction with no meaning in the model, by its mnemonic. Raised by no arm of `exec`. -/
  | notModelled (mnemonic : String)
  /-- A read of `IB` at or beyond `LEN`: such an access does not exist (R41). Safe: no run reaches it (R174). -/
  | memReadOutside
  /-- A `PixWrite` outside the raster: the contract leaves it undefined, and a model that gives it a meaning must refuse
  (R46, U5). Safe: no run reaches it. -/
  | pixWriteOutside
  /-- A `PixRead` outside the raster, as `pixWriteOutside` (R46, U5). Safe: no run reaches it. -/
  | pixReadOutside
  /-- A `start` of a unit that is not `Idle`: `STATUS` has no such transition (R16, R24), and the host must not do it
  (D15, U9). Raised by the host operations. Safe (log entry 2). -/
  | startNotIdle
  deriving DecidableEq, Repr

/-- The machine right after reset (R200): both units `Idle`. Every other register is unspecified there; the values are
the model's (log entries 4 and 7), the reset value of R12, R13, R14, R19 to R21, R23 where one is stated. -/
def State.reset : State where
  dec := { w := 0, h := 0, x := 0, y := 0, off := Config.headerBytes, status := .idle, errCause := .noError, errInfo := 0 }
  enc := { w := 0, h := 0, x := 0, y := 0, runKind := .none, runLen := 0, runBuf := Vector.replicate 32 0, status := .idle,
           errCause := .noError }
  ib := { len := 0, cells := [] }
  img := { width := 0, height := 0, cells := [] }
  src := { width := 0, height := 0, cells := [] }
  ob := { len := 0, cells := [] }
  encSingleOpaque := Config.encSingleOpaqueDefault
  host := []
  epoch := 0

end Sys2Proof.Machine
end

