-- ==== Sys2Proof/Machine/Flags.lean ====
section
/-! DEFINITION. The block has no condition codes (`10_state.md` R25). Its flag-like state is `STATUS`, `ERR_CAUSE` and
`ENC.RUN_KIND`: how each is computed stands here. -/

namespace Sys2Proof.Machine

/-- `STATUS` of a decode pass that has not faulted, at offset `off` of `len` bytes: `Done` exactly when the offset is
the length (R16, R100, R115). -/
def decStatusAt (off len : Nat) : Status := if off = len then .done else .running

/-- `STATUS` of an encode pass at row `y` of `h` rows: `Done` exactly when the scan has left the last row (R19, R130,
R211). -/
def encStatusAt (y h : Nat) : Status := if y = h then .done else .running

/-- The cause an error latches (R186, R187). -/
def causeOf : Error → ErrCause
  | .truncatedInput => .truncatedInput
  | .unknownOpcode _ => .unknownOpcode
  | .outOfBoundsPixel => .outOfBoundsPixel
  | .invalidArgument => .invalidArgument
  | .invalidHeader => .invalidHeader

/-- The value an error latches in `DEC.ERR_INFO`: the opcode of `UnknownOpcodeError`, else 0 (R186). -/
def infoOf : Error → BitVec 3
  | .unknownOpcode op => op
  | .truncatedInput => 0
  | .outOfBoundsPixel => 0
  | .invalidArgument => 0
  | .invalidHeader => 0

/-- The cause codes (R187). -/
def codeOf : ErrCause → Nat
  | .noError => 0
  | .truncatedInput => 1
  | .unknownOpcode => 2
  | .outOfBoundsPixel => 3
  | .invalidArgument => 4
  | .invalidHeader => 5

/-- `Class(p)`: `Transparent` when the alpha is 0, else `Opaque`; no other channel is read (R133). -/
def classOf (p : Pixel) : RunKind := if p.a = 0 then .transparentRun else .opaqueRun

/-- `AllEqual(buf, n)` on the words of a run: every word equals the first (R138, R144). -/
def allEqual : List Word → Bool
  | [] => true
  | w :: ws => ws.all fun v => v == w

end Sys2Proof.Machine
end

