-- ==== Sys2Proof/Machine/Ops.lean ====
section
/-! DEFINITION. The named operations over memories and registers (`00_scope.md` R8): the sparse memories and their canonical
form, the byte buffers, the rasters, `raise` (R186), the cursor primitives (R104, R105) and the advance past a token
(R15). -/

namespace Sys2Proof.Machine

/-! ### Sparse memories in canonical form

A list of (key, value) pairs; a key that is not listed reads as `d`. -/

/-- Read a key: keys rise, so a greater key ends the search. -/
def readCells {α : Type} (d : α) : List (Nat × α) → Nat → α
  | [], _ => d
  | (k, v) :: t, a => if k < a then readCells d t a else if k = a then v else d

/-- Write a key, keeping the canonical form: writing `d` removes the entry. (The filter is the identity on a canonical
list; with it the read laws hold of every list.) -/
def writeCells {α : Type} [DecidableEq α] (d : α) : List (Nat × α) → Nat → α → List (Nat × α)
  | [], a, v => if v = d then [] else [(a, v)]
  | (k, u) :: t, a, v =>
    if k < a then (k, u) :: writeCells d t a v
    else if k = a then
      if v = d then t.filter (fun c => decide (a < c.1)) else (a, v) :: t
    else if v = d then (k, u) :: t else (a, v) :: (k, u) :: t

/-- The canonical form: keys strictly rising, no value equal to `d`, every key below `bound`. -/
def cellsWf {α : Type} [DecidableEq α] (d : α) (bound : Nat) : List (Nat × α) → Bool
  | [] => true
  | (k, v) :: t => decide (v ≠ d) && decide (k < bound) && t.all (fun c => decide (k < c.1)) && cellsWf d bound t

/-- What an unlisted offset of a buffer reads as (log entry 8). -/
def unlistedByte : Byte := 0

/-- The canonical form of a buffer's memory, all of it below `len` (R41). -/
def Memory.wf (len : Nat) (m : Memory) : Bool := cellsWf unlistedByte len m

/-! ### Byte buffers (R41, R42) -/

/-- A buffer is in canonical form. -/
def Buffer.wf (b : Buffer) : Bool := Memory.wf b.len b.cells

/-- The empty buffer (R23). -/
def Buffer.empty : Buffer := { len := 0, cells := [] }

/-- `MemRead(a, 1)` (R8): the byte at offset `a`, defined only below the length (R41). -/
def Buffer.read8 (b : Buffer) (a : Nat) : Option Byte :=
  if a < b.len then some (readCells unlistedByte b.cells a) else none

/-- `MemRead(a, 2)` (R8, R47): two 1-byte reads, the lower offset less significant; no alignment (R48). -/
def Buffer.read16 (b : Buffer) (a : Nat) : Option Word :=
  match b.read8 a, b.read8 (a + 1) with
  | some b0, some b1 => some (le16 b0 b1)
  | _, _ => none

/-- `Emit(b)` (R8): append one byte. -/
def Buffer.push (b : Buffer) (v : Byte) : Buffer :=
  { len := b.len + 1, cells := writeCells unlistedByte b.cells b.len v }

/-- Append bytes in order (R50). -/
def Buffer.pushAll (b : Buffer) (bs : List Byte) : Buffer := bs.foldl Buffer.push b

/-- The buffer that holds exactly these bytes. -/
def Buffer.ofBytes (bs : List Byte) : Buffer := Buffer.empty.pushAll bs

/-- Every byte of a buffer, offset 0 first. -/
def Buffer.bytes (b : Buffer) : List Byte := (List.range b.len).map (readCells unlistedByte b.cells)

/-- Replace the byte at an offset, lengthening the buffer if it ends before it (used only to place a token, log
entry 1). -/
def Buffer.place (b : Buffer) (a : Nat) (v : Byte) : Buffer :=
  { len := max b.len (a + 1), cells := writeCells unlistedByte b.cells a v }

/-- Replace bytes from an offset on. -/
def Buffer.placeAll (b : Buffer) (a : Nat) : List Byte → Buffer
  | [] => b
  | v :: vs => (b.place a v).placeAll (a + 1) vs

/-! ### Rasters (R44) -/

/-- The key of a coordinate. -/
def Raster.key (r : Raster) (x y : Nat) : Nat := y * r.width + x

/-- A raster is in canonical form. -/
def Raster.wf (r : Raster) : Bool := cellsWf Config.blank (r.width * r.height) r.cells

/-- `newBlank(width, height)`: every pixel `BLANK` (R44, R45). -/
def newBlank (width height : Nat) : Raster := { width, height, cells := [] }

/-- `getPixel(x, y)`, which is `PixRead`: only inside the raster (R44, R46). -/
def Raster.getPixel (r : Raster) (x y : Nat) : Option Pixel :=
  if x < r.width ∧ y < r.height then some (readCells Config.blank r.cells (r.key x y)) else none

/-- `setPixel(x, y, p)`, which is `PixWrite`: only inside the raster, all four channels at once (R44, R46, R49). -/
def Raster.setPixel (r : Raster) (x y : Nat) (p : Pixel) : Option Raster :=
  if x < r.width ∧ y < r.height then some { r with cells := writeCells Config.blank r.cells (r.key x y) p } else none

/-! ### Taking an error (R186) -/

/-- `raise E` in a decode pass (R186): `STATUS`, `ERR_CAUSE` and `ERR_INFO`, and nothing else. There is no return from
an error: `Faulted` is left by `reset` alone (R188). -/
def raiseDec (e : Error) (s : State) : State :=
  { s with dec := { s.dec with status := .faulted, errCause := causeOf e, errInfo := infoOf e } }

/-- `raise E` in an encode pass (R186): there is no `ENC.ERR_INFO` (R24). -/
def raiseEnc (e : Error) (s : State) : State :=
  { s with enc := { s.enc with status := .faulted, errCause := causeOf e } }

/-- Why a token's body ends before its end: it raises an error, or it meets a situation the spec gives no meaning. -/
inductive Stop where
  | raises (e : Error)
  | refuses (r : Refusal)
  deriving DecidableEq, Repr

/-- The outcome of a token whose body started in `s` (R102, R119, R189): all of its effects, or, where it raises, the
error alone, taken in `s`. -/
def settle (s : State) : Except Stop State → Host.Outcome State Fault Refusal
  | .ok t => .next t
  | .error (.raises e) => .next (raiseDec e s)
  | .error (.refuses r) => .refused r

/-! ### The cursor primitives (R104, R105) and the advance past a token (R15) -/

/-- `AdvX()`: `DEC.X <- (DEC.X + 1) mod DEC.W`; `DEC.Y` is not touched (R104). For a width of 0 the modulus is undefined
(R162): DESIGN CHOICE (log entry 20), the column becomes `DEC.X + 1` there, in states that no pass reaches. -/
def advX (s : State) : State := { s with dec := { s.dec with x := (s.dec.x + 1) % s.dec.w.toNat } }

/-- `repeat n times: AdvX()` (R111). -/
def advXTimes : Nat → State → State
  | 0, s => s
  | n + 1, s => advXTimes n (advX s)

/-- `DrawPixel(p)` (R105): the row test, the write at the cursor as it was on entry, then the advance. -/
def drawPixel (p : Pixel) (s : State) : Except Stop State :=
  if s.dec.h.toNat ≤ s.dec.y then .error (.raises .outOfBoundsPixel)
  else
    match s.img.setPixel s.dec.x s.dec.y p with
    | none => .error (.refuses .pixWriteOutside)
    | some img => .ok (advX { s with img := img })

/-- `DrawPixel` of each pixel in run order (R50, R110, R112). -/
def drawAll : List Pixel → State → Except Stop State
  | [], s => .ok s
  | p :: ps, s =>
    match drawPixel p s with
    | .ok t => drawAll ps t
    | .error e => .error e

/-- Past a token of `k` bytes (R15): `DEC.OFF <- DEC.OFF + k`, and the pass is done when that is `LEN` (R100, R115). -/
def retire (k : Nat) (s : State) : State :=
  { s with dec := { s.dec with off := s.dec.off + k, status := decStatusAt (s.dec.off + k) s.ib.len } }

end Sys2Proof.Machine
end

