-- ==== Sys2Proof/Machine/CursorTokens.lean ====
section
/-! DEFINITION. The two tokens that only move the cursor (`42_token_decoder.md` R111, R113). Neither reads a payload, writes
a pixel, or faults. -/

namespace Sys2Proof.Machine

/-- `Transparent(n)` (R111): `n` single-step advances, then past 1 byte. No row test: nothing is written. -/
def execTransparent (n : Nat) (s : State) : Host.Outcome State Fault Refusal := .next (retire 1 (advXTimes n s))

/-- The cursor effect of `NewLine` (R113): `DEC.X <- 0`, `DEC.Y <- DEC.Y + 1`. -/
def nextRow (s : State) : State := { s with dec := { s.dec with x := 0, y := s.dec.y + 1 } }

/-- `NewLine()` (R113); the field `_f` is ignored (R68). -/
def execNewLine (_f : BitVec 5) (s : State) : Host.Outcome State Fault Refusal := .next (retire 1 (nextRow s))

end Sys2Proof.Machine
end

