-- ==== Sys2Proof/Machine/ColorCodec.lean ====
section
/-! DEFINITION. The colour packer and unpacker (`41_color_codec.md` R90, R91). -/

namespace Sys2Proof.Machine

/-- `Unpack555(word)` (R90): each 5-bit field shifted into the high bits of its channel, alpha 255, bit 15 ignored. -/
def unpack555 (w : Word) : Pixel where
  r := ((w &&& 0x7C00#16) >>> 7).setWidth 8
  g := ((w &&& 0x03E0#16) >>> 2).setWidth 8
  b := ((w &&& 0x001F#16) <<< 3).setWidth 8
  a := Config.alphaOpaque

/-- `Pack555(pixel)` (R91): the five high bits of each channel; alpha is not read, bit 15 is 0. -/
def pack555 (p : Pixel) : Word :=
  (((p.r >>> 3).setWidth 16 : Word) <<< 10) ||| (((p.g >>> 3).setWidth 16 : Word) <<< 5) ||| ((p.b >>> 3).setWidth 16 : Word)

end Sys2Proof.Machine
end

