-- ==== Sys2Proof/Machine/Operands.lean ====
section
/-! DEFINITION. The operand forms: the control byte at `DEC.OFF` (`42_token_decoder.md` R102), the colour words of a payload
(`30_encoding.md` R65) and the test that the payload is complete (`60_exceptions.md` R181). No encoding carries an address
(`44_arithmetic_and_properties.md` R166). -/

namespace Sys2Proof.Machine

/-- The control byte of the next token, `MemRead(DEC.OFF, 1)`, decoded (R102). -/
def fetch (s : State) : Except Refusal Instr :=
  match s.ib.read8 s.dec.off with
  | some c => .ok (decode c)
  | none => .error .memReadOutside

/-- Where a payload starts: the byte after the control byte (R60). -/
abbrev payloadOffset (s : State) : Nat := s.dec.off + 1

/-- `LEN - (DEC.OFF + 1) < k`: fewer than `k` bytes follow the control byte (R110, R112, R181). -/
abbrev payloadShort (s : State) (k : Nat) : Prop := s.ib.len - payloadOffset s < k

/-- `n` colour words from offset `a`, word `i` being `MemRead(a + 2i, 2)` (R65). -/
def colorWords (b : Buffer) : Nat → Nat → Option (List Word)
  | _, 0 => some []
  | a, n + 1 =>
    match b.read16 a, colorWords b (a + Config.wordBytes) n with
    | some w, some ws => some (w :: ws)
    | _, _ => none

/-- The pixels of a `PixelStream` payload of `n` words: the whole payload is tested first, then read (R110). -/
def streamPixels (n : Nat) (s : State) : Except Stop (List Pixel) :=
  if payloadShort s (Config.wordBytes * n) then .error (.raises .truncatedInput)
  else
    match colorWords s.ib (payloadOffset s) n with
    | some ws => .ok (ws.map unpack555)
    | none => .error (.refuses .memReadOutside)

/-- The pixels of a `Repeat` of `n`: one word, decoded once, `n` times (R112). -/
def repeatPixels (n : Nat) (s : State) : Except Stop (List Pixel) :=
  if payloadShort s Config.wordBytes then .error (.raises .truncatedInput)
  else
    match s.ib.read16 (payloadOffset s) with
    | some w => .ok (List.replicate n (unpack555 w))
    | none => .error (.refuses .memReadOutside)

end Sys2Proof.Machine
end

