-- ==== Sys2Proof/Machine/DrawTokens.lean ====
section
/-! DEFINITION. The two tokens that draw (`42_token_decoder.md` R110, R112). -/

namespace Sys2Proof.Machine

/-- A drawing token: fetch its pixels, draw them in run order, pass over its `k` bytes (R110, R112). Truncation is
tested before the row (R192). -/
def drawToken (k : Nat) (pixels : Except Stop (List Pixel)) (s : State) : Host.Outcome State Fault Refusal :=
  settle s <|
    match pixels with
    | .error e => .error e
    | .ok ps =>
      match drawAll ps s with
      | .error e => .error e
      | .ok t => .ok (retire k t)

/-- `PixelStream(n)` (R110): `1 + 2n` bytes. -/
def execPixelStream (n : Nat) (s : State) : Host.Outcome State Fault Refusal :=
  drawToken (1 + Config.wordBytes * n) (streamPixels n s) s

/-- `Repeat(n)` (R112): 3 bytes. -/
def execRepeat (n : Nat) (s : State) : Host.Outcome State Fault Refusal :=
  drawToken (1 + Config.wordBytes) (repeatPixels n s) s

end Sys2Proof.Machine
end

