-- ==== Sys2Proof/Machine/InvalidTokens.lean ====
section
/-! DEFINITION. The four invalid opcodes (`42_token_decoder.md` R114): each takes `UnknownOpcodeError` with its opcode.
Nothing after the control byte is read; the cursor, `DEC.OFF` and the raster stay. -/

namespace Sys2Proof.Machine

/-- Opcode 3 (R114, R182). -/
def execInvalid3 (_f : BitVec 5) (s : State) : Host.Outcome State Fault Refusal := .next (raiseDec (.unknownOpcode 3) s)

/-- Opcode 5 (R114, R182). -/
def execInvalid5 (_f : BitVec 5) (s : State) : Host.Outcome State Fault Refusal := .next (raiseDec (.unknownOpcode 5) s)

/-- Opcode 6 (R114, R182). -/
def execInvalid6 (_f : BitVec 5) (s : State) : Host.Outcome State Fault Refusal := .next (raiseDec (.unknownOpcode 6) s)

/-- Opcode 7 (R114, R182). -/
def execInvalid7 (_f : BitVec 5) (s : State) : Host.Outcome State Fault Refusal := .next (raiseDec (.unknownOpcode 7) s)

end Sys2Proof.Machine
end

