-- ==== Sys2Proof/Machine/Dispatch.lean ====
section
/-! DEFINITION. The opcode dispatcher (`42_token_decoder.md` R103): exactly one arm, chosen by the instruction alone. -/

namespace Sys2Proof.Machine

def exec (i : Instr) (s : State) : Host.Outcome State Fault Refusal :=
  match i with
  | .pixelStream n => Sys2Proof.Machine.execPixelStream n s
  | .transparent n => Sys2Proof.Machine.execTransparent n s
  | .repeatRun n => Sys2Proof.Machine.execRepeat n s
  | .invalid3 f => Sys2Proof.Machine.execInvalid3 f s
  | .newLine f => Sys2Proof.Machine.execNewLine f s
  | .invalid5 f => Sys2Proof.Machine.execInvalid5 f s
  | .invalid6 f => Sys2Proof.Machine.execInvalid6 f s
  | .invalid7 f => Sys2Proof.Machine.execInvalid7 f s

end Sys2Proof.Machine
end

