-- ==== Sys2Proof/Machine/HeaderCodec.lean ====
section
/-! DEFINITION. The header codec (`40_header_codec.md` R80, R81; layout `20_memory.md` R43, `30_encoding.md` R71). -/

namespace Sys2Proof.Machine

/-- `HeaderParse(IB)` (R80): width at offset 0, height at offset 4; none when fewer than 8 bytes (the whole header is
tested first). The reserved bytes are not read into anything (R69). -/
def headerParse (b : Buffer) : Option (Word × Word) :=
  if b.len < Config.headerBytes then none
  else
    match b.read16 0, b.read16 4 with
    | some w, some h => some (w, h)
    | _, _ => none

/-- `HeaderWrite(width, height)` (R81): 8 bytes, the reserved fields zero. -/
def headerWrite (w h : Word) : List Byte := [lo8 w, hi8 w, 0, 0, lo8 h, hi8 h, 0, 0]

end Sys2Proof.Machine
end

