-- ==== Sys2Proof/Machine/Encoder.lean ====
section
/-! DEFINITION. The token encoder's step: run detector, opcode classifier, bitstream writer (`43_token_encoder.md` R132 to
R144). -/

namespace Sys2Proof.Machine

/-- `Emit` of bytes in order (R8, R50). -/
def emit (bs : List Byte) (s : State) : State := { s with ob := s.ob.pushAll bs }

/-- The words of the accumulated run, `ENC.RUN_BUF[0 .. RUN_LEN - 1]`, in scan order (R22). -/
def runWords (e : EncUnit) : List Word := e.runBuf.toList.take e.runLen

/-- The opcode classifier (R137, R144): the token a finished run becomes. -/
def runToken (single : SingleOpaque) (e : EncUnit) : Token :=
  if e.runKind = .transparentRun then { instr := .transparent e.runLen, payload := [] }
  else if allEqual (runWords e) = true ∧ (2 ≤ e.runLen ∨ single = .repeatRun) then
    { instr := .repeatRun e.runLen, payload := (runWords e).take 1 }
  else { instr := .pixelStream e.runLen, payload := runWords e }

/-- Empty the accumulator (R144). -/
def clearRun (s : State) : State := { s with enc := { s.enc with runLen := 0, runKind := .none } }

/-- `Flush()` (R144): one token, then an empty accumulator. -/
def flush (s : State) : State := clearRun (emit (encodeToken (runToken s.encSingleOpaque s.enc)) s)

/-- The run detector before the pixel is added (R134, R135, R143): trigger 1, the run is full; else trigger 2, the class
`k` of the pixel differs from the run's. -/
def flushBefore (k : RunKind) (s : State) : State :=
  if s.enc.runLen = Config.maxRun then flush s
  else if 0 < s.enc.runLen ∧ s.enc.runKind ≠ k then flush s
  else s

/-- Add a pixel of class `k` to the run (R143): it names the class of an empty run, and an opaque pixel's word goes into
`ENC.RUN_BUF`. -/
def addPixel (k : RunKind) (p : Pixel) (s : State) : State :=
  { s with enc := { s.enc with
      runKind := if s.enc.runLen = 0 then k else s.enc.runKind
      runBuf := if k = .opaqueRun then s.enc.runBuf.setIfInBounds s.enc.runLen (pack555 p) else s.enc.runBuf
      runLen := s.enc.runLen + 1 } }

/-- The `NewLine` token the encoder emits (R142): one byte, `0x80`. -/
def newLineToken : Token := { instr := .newLine Config.newLineField, payload := [] }

/-- After the pixel (R136, R143): on the last column trigger 3 flushes the run, `NewLine` is emitted and the scan goes to
the start of the next row; else to the next column. -/
def advanceScan (s : State) : State :=
  if s.enc.x = s.enc.w - 1 then
    let t := emit (encodeToken newLineToken) (flush s)
    { t with enc := { t.enc with x := 0, y := t.enc.y + 1 } }
  else { s with enc := { s.enc with x := s.enc.x + 1 } }

/-- The pass is done when the scan has left the last row (R130, R211). -/
def settleEnc (s : State) : State := { s with enc := { s.enc with status := encStatusAt s.enc.y s.enc.h } }

/-- What a step does with the fetched pixel (R143). -/
def takePixel (p : Pixel) (s : State) : State :=
  settleEnc (advanceScan (addPixel (classOf p) p (flushBefore (classOf p) s)))

/-- `EncStep()` (R143): one pixel. -/
def encStep (s : State) : Host.Outcome State Fault Refusal :=
  match s.src.getPixel s.enc.x s.enc.y with
  | some p => .next (takePixel p s)
  | none => .refused .pixReadOutside

end Sys2Proof.Machine
end

