-- ==== Sys2Proof/Machine/HostOps.lean ====
section
/-! DEFINITION. The host's operations, `reset` and `start` (`70_reset_and_hazards.md` R200 to R202, R211), and what the host
receives after a pass (R31, R191, R211). -/

namespace Sys2Proof.Machine

/-- `reset` (R200): both units `Idle`, any pass abandoned. The other registers are unspecified and take the values of
`State.reset` (log entry 4); the parameter, the pending operations and the epoch are not registers of the block. -/
def hostReset (s : State) : State :=
  { State.reset with encSingleOpaque := s.encSingleOpaque, host := s.host, epoch := s.epoch }

/-- The decoder registers after a pass that faulted at its start: none has a defined value, and no raster exists (R191,
R201). `STATUS` and the error are then latched by `raiseDec`. -/
def decUndefined (s : State) : State :=
  { s with
    dec := { s.dec with w := Config.unspecWord s.epoch 0, h := Config.unspecWord s.epoch 1, x := Config.unspecNat s.epoch 2,
                        y := Config.unspecNat s.epoch 3, off := Config.unspecNat s.epoch 4 }
    img := newBlank 0 0 }

/-- The start state of a decode pass whose header gave `w` by `h` (R100, R101, R201). -/
def decStart (w h : Word) (s : State) : State :=
  { s with
    dec := { w := w, h := h, x := 0, y := 0, off := Config.headerBytes, status := decStatusAt Config.headerBytes s.ib.len,
             errCause := .noError, errInfo := 0 }
    img := newBlank w.toNat h.toNat }

/-- The header checks of a decode pass, in their order (R192): the length, then a zero dimension (R80, R82). -/
def openDecode (s : State) : State :=
  match headerParse s.ib with
  | none => raiseDec .truncatedInput (decUndefined s)
  | some (w, h) => if w = 0 ∨ h = 0 then raiseDec .invalidHeader (decUndefined s) else decStart w h s

/-- `start(DEC, IB)` (R201): the buffer is in place before the pass (R204). -/
def startDecode (bytes : List Byte) (s : State) : State := openDecode { s with ib := Buffer.ofBytes bytes }

/-- A dimension the start check of an encode pass accepts: 1 to 65535 (R131). -/
abbrev encDimOk (n : Nat) : Prop := n ≠ 0 ∧ n ≤ Config.maxDim

/-- The start state of an encode pass (R130, R202). `ENC.RUN_BUF` is not written: its entries are never read before they
are (log entry 7). -/
def encStart (s : State) : State :=
  { s with
    enc := { s.enc with w := s.src.width, h := s.src.height, x := 0, y := 0, runKind := .none, runLen := 0, status := .running,
                        errCause := .noError }
    ob := Buffer.ofBytes (headerWrite (BitVec.ofNat 16 s.src.width) (BitVec.ofNat 16 s.src.height)) }

/-- A free `RUN_LEN` (log entry 6): any value from 0 to 32 (R21, R163). -/
def unspecRunLen (epoch : Nat) : Nat := Config.unspecNat epoch 7 % (Config.maxRun + 1)

/-- A free `RUN_KIND` (log entry 6): `None` exactly when the run is empty (R20), else either class. -/
def unspecRunKind (epoch : Nat) : RunKind :=
  if unspecRunLen epoch = 0 then .none
  else if Config.unspecNat epoch 8 = 0 then .opaqueRun
  else .transparentRun

/-- The encoder after a pass that faulted at its start, before the error is latched: `ENC.W` and `ENC.H` are loaded (R130),
`OB` is empty (R191, R202); the scan position and the run are not set by the pass and are free within the bounds that hold
always, 65535 and 32 (R163; log entry 6). -/
def encUndefined (s : State) : State :=
  { s with
    enc := { s.enc with w := s.src.width, h := s.src.height, x := (Config.unspecWord s.epoch 5).toNat,
                        y := (Config.unspecWord s.epoch 6).toNat, runKind := unspecRunKind s.epoch,
                        runLen := unspecRunLen s.epoch }
    ob := Buffer.empty }

/-- `start(ENC, SRC)` (R202) with the start check (R131): no byte is emitted and no pixel read before it. -/
def startEncode (r : Raster) (s : State) : State :=
  let s := { s with src := r }
  if encDimOk r.width ∧ encDimOk r.height then encStart s else raiseEnc .invalidArgument (encUndefined s)

/-- One host operation. A `start` is given a meaning only from `Idle`, the one state that `STATUS` leaves by a start (R16,
R24; log entry 2). -/
def hostStep (op : HostOp) (s : State) : Host.Outcome State Fault Refusal :=
  match op with
  | .reset => .next (hostReset s)
  | .startDecode bytes => if s.dec.status = .idle then .next (startDecode bytes s) else .refused .startNotIdle
  | .startEncode r => if s.enc.status = .idle then .next (startEncode r s) else .refused .startNotIdle

/-- What the host receives of a decode pass that has ended (R191, R211): the image, or the error alone. -/
def decResult (s : State) : Option (Except (ErrCause × BitVec 3) Raster) :=
  match s.dec.status with
  | .done => some (.ok s.img)
  | .faulted => some (.error (s.dec.errCause, s.dec.errInfo))
  | .idle => none
  | .running => none

/-- What the host receives of an encode pass that has ended (R191, R211): the byte buffer, or the error alone. -/
def encResult (s : State) : Option (Except ErrCause (List Byte)) :=
  match s.enc.status with
  | .done => some (.ok s.ob.bytes)
  | .faulted => some (.error s.enc.errCause)
  | .idle => none
  | .running => none

end Sys2Proof.Machine
end

