-- ==== Sys2Proof/Machine/Agents.lean ====
section
/-! DEFINITION. Which agent moves, the decoder's step (`42_token_decoder.md` R102), and the two whole passes (R100,
`43_token_encoder.md` R130). -/

namespace Sys2Proof.Machine

/-- `DecStep()` (R102): fetch the control byte and dispatch on it. -/
def decStep (s : State) : Host.Outcome State Fault Refusal :=
  match fetch s with
  | .ok i => exec i s
  | .error r => .refused r

/-- The two units (R10). -/
inductive Agent where
  | dec
  | enc
  deriving DecidableEq, Repr

/-- The unit that steps next: the one that is `Running`; where both are, the spec gives no order and the choice is a free
value (R10; log entry 3). -/
def nextAgent (s : State) : Option Agent :=
  if s.dec.status = .running then
    if s.enc.status = .running then
      if Config.decFirst s.epoch s.dec.off s.enc.y s.enc.x = true then some .dec else some .enc
    else some .dec
  else if s.enc.status = .running then some .enc
  else none

/-- One step of a unit. -/
def agentStep (a : Agent) (s : State) : Host.Outcome State Fault Refusal :=
  match a with
  | .dec => decStep s
  | .enc => encStep s

/-- `while DEC.STATUS is Running do DecStep()`, at most `k` times (R100). -/
def runDec : Nat → State → Host.Outcome State Fault Refusal
  | 0, s => .next s
  | k + 1, s =>
    if s.dec.status = .running then
      match decStep s with
      | .next t => runDec k t
      | .fault f => .fault f
      | .refused r => .refused r
    else .next s

/-- `while ENC.STATUS is Running do EncStep()`, at most `k` times (R130). -/
def runEnc : Nat → State → Host.Outcome State Fault Refusal
  | 0, s => .next s
  | k + 1, s =>
    if s.enc.status = .running then
      match encStep s with
      | .next t => runEnc k t
      | .fault f => .fault f
      | .refused r => .refused r
    else .next s

/-- `Decode(IB)` (R100) from a state whose decoder is idle: start, then step until the pass has ended. `LEN` steps are
enough (R115). -/
def decodePass (bytes : List Byte) (s : State) : Host.Outcome State Fault Refusal :=
  runDec bytes.length (startDecode bytes s)

/-- `Encode(SRC)` (R130) from a state whose encoder is idle; `W * H` steps are enough (R165). -/
def encodePass (r : Raster) (s : State) : Host.Outcome State Fault Refusal :=
  runEnc (r.width * r.height) (startEncode r s)

end Sys2Proof.Machine
end

