-- ==== Sys2Proof/Machine/Step.lean ====
section
/-! DEFINITION. One step of the machine: a pending host operation, else one step of a running unit, else none exists
(`60_exceptions.md` R188, `70_reset_and_hazards.md` R211). -/

namespace Sys2Proof.Machine

/-- One step. -/
def step (s : State) : Host.Outcome State Fault Refusal :=
  match s.host with
  | op :: rest => hostStep op { s with host := rest, epoch := s.epoch + 1 }
  | [] =>
    match nextAgent s with
    | some a => agentStep a s
    | none => .fault .noStep

/-- `s` with an instruction stored where `step` fetches next, and all that running it takes (log entry 1): in a running
decode pass the bytes go to `DEC.OFF`; otherwise a decode pass of a 32 by 1 image is started over them. The encoder
is not running and no host operation is pending, so the very next step is the decoder's. -/
def State.withFetchWord (s : State) (nbits w : Nat) : State :=
  let quiet : State :=
    { s with host := [], enc := if s.enc.status = .running then { s.enc with status := .idle } else s.enc }
  if s.dec.status = .running then { quiet with ib := s.ib.placeAll s.dec.off (tableBytes nbits w) }
  else startDecode (headerWrite 32 1 ++ tableBytes nbits w) quiet

end Sys2Proof.Machine
end

