-- ==== Sys2Proof/Safety.lean ====
section
/-! DEFINITION. What counts as a legal state: the invariants the spec states of every step boundary (`10_state.md` R11 to R24,
`60_exceptions.md` R180 to R187) and the canonical form of the memories. -/

namespace Sys2Proof.Machine

/-- A pending host operation whose raster is canonical (the host's side of R205). -/
abbrev HostOp.wf : HostOp → Prop
  | .reset => True
  | .startDecode _ => True
  | .startEncode r => r.wf = true

/-- Every memory is in canonical form. -/
structure MemInv (s : State) : Prop where
  ib : s.ib.wf = true
  ob : s.ob.wf = true
  img : s.img.wf = true
  src : s.src.wf = true
  host : ∀ op ∈ s.host, op.wf

/-- The decoder between two steps of a pass that has not faulted (R11 to R17, R46). -/
structure DecPass (s : State) : Prop where
  w_pos : s.dec.w ≠ 0
  h_pos : s.dec.h ≠ 0
  x_lt : s.dec.x < s.dec.w.toNat
  off_le : s.dec.off ≤ s.ib.len
  y_le : s.dec.y + Config.headerBytes ≤ s.dec.off
  img_width : s.img.width = s.dec.w.toNat
  img_height : s.img.height = s.dec.h.toNat
  status : s.dec.status = decStatusAt s.dec.off s.ib.len
  cause : s.dec.errCause = .noError
  info : s.dec.errInfo = 0

/-- The errors a decode pass can latch, each with its value (R180, R186). -/
def decErrorLatched (c : ErrCause) (info : BitVec 3) : Prop :=
  (c = .truncatedInput ∧ info = 0) ∨ (c = .outOfBoundsPixel ∧ info = 0) ∨ (c = .invalidHeader ∧ info = 0) ∨
    (c = .unknownOpcode ∧ (info = 3 ∨ info = 5 ∨ info = 6 ∨ info = 7))

/-- The decoder's invariant, by its status. -/
def DecInv (s : State) : Prop :=
  match s.dec.status with
  | .idle => True
  | .running => DecPass s
  | .done => DecPass s
  | .faulted => decErrorLatched s.dec.errCause s.dec.errInfo

/-- The encoder between two steps of a pass (R18 to R24): the dimensions are the raster's; the run is empty exactly at
the start of a row; it never holds more than 32 pixels; its words have bit 15 clear (R149 c). -/
structure EncPass (s : State) : Prop where
  w_ok : encDimOk s.enc.w
  h_ok : encDimOk s.enc.h
  src_width : s.src.width = s.enc.w
  src_height : s.src.height = s.enc.h
  x_lt : s.enc.x < s.enc.w
  y_le : s.enc.y ≤ s.enc.h
  status : s.enc.status = encStatusAt s.enc.y s.enc.h
  run_max : s.enc.runLen ≤ Config.maxRun
  run_le : s.enc.runLen ≤ s.enc.x
  run_empty : s.enc.runLen = 0 ↔ s.enc.x = 0
  kind_none : s.enc.runKind = .none ↔ s.enc.runLen = 0
  words : s.enc.runKind = .opaqueRun → ∀ w ∈ runWords s.enc, w.msb = false
  header : Config.headerBytes ≤ s.ob.len
  cause : s.enc.errCause = .noError

/-- The encoder's invariant, by its status. -/
def EncInv (s : State) : Prop :=
  match s.enc.status with
  | .idle => True
  | .running => EncPass s
  | .done => EncPass s ∧ s.enc.x = 0
  | .faulted => s.enc.errCause = .invalidArgument ∧ s.ob = Buffer.empty

/-- What holds of the encoder's scan position and run whatever its status, a fault included: the position never exceeds
65535 and the run never 32 pixels (R163), and the run has no class exactly when it is empty (R20). -/
structure EncBounds (s : State) : Prop where
  x_le : s.enc.x ≤ Config.maxDim
  y_le : s.enc.y ≤ Config.maxDim
  run_max : s.enc.runLen ≤ Config.maxRun
  kind_none : s.enc.runKind = .none ↔ s.enc.runLen = 0

/-- The machine's invariant. -/
structure Inv (s : State) : Prop where
  mem : MemInv s
  dec : DecInv s
  enc : EncInv s
  bounds : EncBounds s

/-- A pixel the decoder can deliver (R121): never written, or drawn from a colour word. -/
def decodedPixel (p : Pixel) : Prop :=
  p = Config.blank ∨
    ∃ i j k : Nat, i ≤ 31 ∧ j ≤ 31 ∧ k ≤ 31 ∧
      p = ⟨BitVec.ofNat 8 (8 * i), BitVec.ofNat 8 (8 * j), BitVec.ofNat 8 (8 * k), 255⟩

/-- Every pixel of the decoder's raster is one it can deliver (R121). -/
def ImgInv (s : State) : Prop := ∀ x y p, s.img.getPixel x y = some p → decodedPixel p

/-- How many pixels of its row a token covers (R207, R149): the run length; none for `NewLine` and the invalid opcodes. -/
def runOf : Instr → Nat
  | .pixelStream n => n
  | .transparent n => n
  | .repeatRun n => n
  | .invalid3 _ => 0
  | .newLine _ => 0
  | .invalid5 _ => 0
  | .invalid6 _ => 0
  | .invalid7 _ => 0

/-- Whether an instruction writes pixels (R105, R166). -/
def draws : Instr → Bool
  | .pixelStream _ => true
  | .transparent _ => false
  | .repeatRun _ => true
  | .invalid3 _ => false
  | .newLine _ => false
  | .invalid5 _ => false
  | .invalid6 _ => false
  | .invalid7 _ => false

/-- Whether an instruction is a `NewLine`. -/
def isNewLine : Instr → Bool
  | .pixelStream _ => false
  | .transparent _ => false
  | .repeatRun _ => false
  | .invalid3 _ => false
  | .newLine _ => true
  | .invalid5 _ => false
  | .invalid6 _ => false
  | .invalid7 _ => false

/-- The tokens of a well-formed stream (R207 b, c, d) from column `col` of row `row` on: every token is well-formed, no run
crosses the end of a row of `w` pixels, and nothing is drawn on row `h` or below. R207 (c) bounds the sum of the run lengths
before the first `NewLine` and between two `NewLine`s; DEDUCED (log entry 21): here the tokens after the last `NewLine`, or
all of them where there is none, keep the same bound. -/
def streamOk (w h : Nat) : (col row : Nat) → List Token → Prop
  | _, _, [] => True
  | col, row, t :: ts =>
    t.wellFormed ∧ col + runOf t.instr ≤ w ∧ (draws t.instr = true → row < h) ∧
      (if isNewLine t.instr = true then streamOk w h 0 (row + 1) ts else streamOk w h (col + runOf t.instr) row ts)

/-- A well-formed buffer (R207): a header with dimensions that are not zero, whatever its reserved fields hold, then a
well-formed stream. -/
def wellFormedBuffer (bytes : List Byte) : Prop :=
  ∃ (w h r1 r2 : Word) (ts : List Token), w ≠ 0 ∧ h ≠ 0 ∧
    bytes = wordBytes w ++ wordBytes r1 ++ wordBytes h ++ wordBytes r2 ++ encodeTokens ts ∧
    streamOk w.toNat h.toNat 0 0 ts

/-- The tokens of an encoder's output from column `col` on, with `rows` rows still to end (R149 a, b, d, e): each row's
runs add up to exactly `w`, each row ends with `0x80`, and there are exactly `rows` of them. -/
def exactRows (w : Nat) : (rows col : Nat) → List Token → Prop
  | rows, col, [] => rows = 0 ∧ col = 0
  | rows, col, t :: ts =>
    t.wellFormed ∧
      (if isNewLine t.instr = true then
        encodeToken t = [0x80] ∧ col = w ∧ 1 ≤ rows ∧ exactRows w (rows - 1) 0 ts
      else exactRows w rows (col + runOf t.instr) ts)

end Sys2Proof.Machine
end

