-- ==== Sys2Proof/Laws/Memory.lean ====
section
/-! SUPPORT. The laws of the sparse memories, the buffers and the rasters: a read after a write, every other place
unchanged, and the canonical form kept by every operation. -/

namespace Sys2Proof.Machine

section cells

variable {α : Type} {d : α}

@[simp] theorem readCells_nil (a : Nat) : readCells d [] a = d := rfl

theorem readCells_of_forall_lt {m : List (Nat × α)} {a : Nat} (h : ∀ c ∈ m, a < c.1) : readCells d m a = d := by
  cases m with
  | nil => rfl
  | cons c t =>
    obtain ⟨k, v⟩ := c
    have hk : a < k := h (k, v) (by simp)
    simp [readCells, show ¬ k < a by omega, show k ≠ a by omega]

variable [DecidableEq α]

omit [DecidableEq α] in
theorem readCells_filter_gt (m : List (Nat × α)) {a b : Nat} (h : a < b) :
    readCells d (m.filter fun c => decide (a < c.1)) b = readCells d m b := by
  induction m with
  | nil => rfl
  | cons c t ih =>
    obtain ⟨k, v⟩ := c
    by_cases hk : a < k
    · simp [hk, readCells, ih]
    · simp [hk, readCells, show k < b by omega, ih]

/-- A read after a write of the same key. -/
@[simp] theorem readCells_writeCells_self (m : List (Nat × α)) (a : Nat) (v : α) :
    readCells d (writeCells d m a v) a = v := by
  induction m with
  | nil => by_cases h : v = d <;> simp [writeCells, h, readCells]
  | cons c t ih =>
    obtain ⟨k, u⟩ := c
    unfold writeCells
    split
    · rename_i h; simp [readCells, h, ih]
    · split
      · split
        · rename_i hv; rw [hv]
          exact readCells_of_forall_lt (by simp)
        · simp [readCells]
      · split
        · rename_i h1 h2 hv; simp [readCells, h1, h2, hv]
        · simp [readCells]

/-- A write leaves every other key alone. -/
theorem readCells_writeCells_ne (m : List (Nat × α)) {a b : Nat} (v : α) (hb : b ≠ a) :
    readCells d (writeCells d m a v) b = readCells d m b := by
  induction m with
  | nil =>
    by_cases h : v = d
    · simp [writeCells, h]
    · simp [writeCells, h, readCells, Ne.symm hb]
  | cons c t ih =>
    obtain ⟨k, u⟩ := c
    unfold writeCells
    split
    · simp [readCells, ih]
    · split
      · rename_i h1 h2
        subst h2
        split
        · by_cases hlt : k < b
          · simp [readCells, hlt, readCells_filter_gt t hlt]
          · rw [readCells_of_forall_lt (by intro c hc; simp at hc; omega)]
            simp [readCells, hlt, Ne.symm hb]
        · simp [readCells, Ne.symm hb]
      · split
        · rfl
        · by_cases hlt : a < b
          · simp [readCells, hlt]
          · simp [readCells, hlt, Ne.symm hb, show ¬ k < b by omega, show k ≠ b by omega]

theorem cellsWf_cons {bound k : Nat} {v : α} {t : List (Nat × α)} :
    cellsWf d bound ((k, v) :: t) = true ↔ v ≠ d ∧ k < bound ∧ (∀ c ∈ t, k < c.1) ∧ cellsWf d bound t = true := by
  simp [cellsWf, and_assoc]

theorem mem_writeCells_key {m : List (Nat × α)} {a : Nat} {v : α} {c : Nat × α} (h : c ∈ writeCells d m a v) :
    c.1 = a ∨ c ∈ m := by
  induction m with
  | nil =>
    by_cases hv : v = d
    · simp [writeCells, hv] at h
    · simp [writeCells, hv] at h; exact .inl (by rw [h])
  | cons e t ih =>
    obtain ⟨k, u⟩ := e
    unfold writeCells at h
    split at h
    · rcases List.mem_cons.1 h with h | h
      · exact .inr (by simp [h])
      · rcases ih h with h | h
        · exact .inl h
        · exact .inr (by simp [h])
    · split at h
      · split at h
        · exact .inr (by simp at h; simp [h.1])
        · rcases List.mem_cons.1 h with h | h
          · exact .inl (by rw [h])
          · exact .inr (by simp [h])
      · split at h
        · exact .inr h
        · rcases List.mem_cons.1 h with h | h
          · exact .inl (by rw [h])
          · exact .inr h

theorem cellsWf_filter {bound : Nat} {m : List (Nat × α)} (p : Nat × α → Bool) (h : cellsWf d bound m = true) :
    cellsWf d bound (m.filter p) = true := by
  induction m with
  | nil => rfl
  | cons e t ih =>
    obtain ⟨k, u⟩ := e
    rw [cellsWf_cons] at h
    rw [List.filter_cons]
    split
    · rw [cellsWf_cons]
      exact ⟨h.1, h.2.1, fun c hc => h.2.2.1 c (List.mem_filter.1 hc).1, ih h.2.2.2⟩
    · exact ih h.2.2.2

/-- A write below the bound keeps the canonical form. -/
theorem cellsWf_writeCells {bound : Nat} {m : List (Nat × α)} {a : Nat} (v : α) (h : cellsWf d bound m = true)
    (ha : a < bound) : cellsWf d bound (writeCells d m a v) = true := by
  induction m with
  | nil =>
    by_cases hv : v = d
    · simp [writeCells, hv, cellsWf]
    · simp [writeCells, hv, cellsWf, ha]
  | cons e t ih =>
    obtain ⟨k, u⟩ := e
    have h' := h
    rw [cellsWf_cons] at h
    unfold writeCells
    split
    · rename_i hk
      rw [cellsWf_cons]
      refine ⟨h.1, h.2.1, fun c hc => ?_, ih h.2.2.2⟩
      rcases mem_writeCells_key hc with hc | hc
      · omega
      · exact h.2.2.1 c hc
    · split
      · rename_i hk
        subst hk
        split
        · exact cellsWf_filter _ h.2.2.2
        · rename_i hv
          exact cellsWf_cons.2 ⟨hv, h.2.1, h.2.2.1, h.2.2.2⟩
      · split
        · exact h'
        · rename_i h1 h2 hv
          refine cellsWf_cons.2 ⟨hv, ha, fun c hc => ?_, h'⟩
          rcases List.mem_cons.1 hc with hc | hc
          · rw [hc]; simp; omega
          · have := h.2.2.1 c hc; omega

theorem cellsWf_mono {b b' : Nat} (hb : b ≤ b') {m : List (Nat × α)} (h : cellsWf d b m = true) :
    cellsWf d b' m = true := by
  induction m with
  | nil => rfl
  | cons e t ih =>
    obtain ⟨k, u⟩ := e
    rw [cellsWf_cons] at h ⊢
    exact ⟨h.1, by omega, h.2.2.1, ih h.2.2.2⟩

/-- Canonical lists that read alike at every key are equal: equal memories are equal data. -/
theorem cellsWf_ext {b : Nat} {m m' : List (Nat × α)} (h : cellsWf d b m = true) (h' : cellsWf d b m' = true)
    (he : ∀ a, readCells d m a = readCells d m' a) : m = m' := by
  induction m generalizing m' with
  | nil =>
    cases m' with
    | nil => rfl
    | cons e t =>
      obtain ⟨k, u⟩ := e
      have := he k
      simp [readCells] at this
      exact absurd this.symm (cellsWf_cons.1 h').1
  | cons e t ih =>
    obtain ⟨k, u⟩ := e
    rw [cellsWf_cons] at h
    cases m' with
    | nil =>
      have := he k
      simp [readCells] at this
      exact absurd this h.1
    | cons e' t' =>
      obtain ⟨k', u'⟩ := e'
      rw [cellsWf_cons] at h'
      have hk : k = k' := by
        rcases Nat.lt_trichotomy k k' with hlt | heq | hlt
        · have := he k
          simp [readCells, show ¬ k' < k by omega, show k' ≠ k by omega] at this
          exact absurd this h.1
        · exact heq
        · have := he k'
          simp [readCells, show ¬ k < k' by omega, show k ≠ k' by omega] at this
          exact absurd this.symm h'.1
      subst hk
      have hu : u = u' := by have := he k; simpa [readCells] using this
      subst hu
      congr 1
      refine ih h.2.2.2 h'.2.2.2 fun a => ?_
      by_cases hka : k < a
      · have := he a; simpa [readCells, hka] using this
      · rw [readCells_of_forall_lt fun c hc => by have := h.2.2.1 c hc; omega,
          readCells_of_forall_lt fun c hc => by have := h'.2.2.1 c hc; omega]

end cells

/-! ### Buffers -/

@[simp] theorem Buffer.push_len (b : Buffer) (v : Byte) : (b.push v).len = b.len + 1 := rfl

@[simp] theorem Buffer.bytes_length (b : Buffer) : b.bytes.length = b.len := by simp [Buffer.bytes]

/-- `Emit` appends one byte and changes no byte emitted before (R42). -/
@[simp] theorem Buffer.bytes_push (b : Buffer) (v : Byte) : (b.push v).bytes = b.bytes ++ [v] := by
  unfold Buffer.bytes
  simp only [Buffer.push, List.range_succ, List.map_append, List.map_cons, List.map_nil, readCells_writeCells_self]
  congr 1
  refine List.map_congr_left fun a ha => readCells_writeCells_ne _ _ ?_
  have := List.mem_range.1 ha
  omega

@[simp] theorem Buffer.pushAll_nil (b : Buffer) : b.pushAll [] = b := rfl

@[simp] theorem Buffer.pushAll_cons (b : Buffer) (v : Byte) (vs : List Byte) :
    b.pushAll (v :: vs) = (b.push v).pushAll vs := rfl

theorem Buffer.pushAll_append (b : Buffer) (xs ys : List Byte) : b.pushAll (xs ++ ys) = (b.pushAll xs).pushAll ys := by
  simp [Buffer.pushAll]

@[simp] theorem Buffer.pushAll_len (b : Buffer) (bs : List Byte) : (b.pushAll bs).len = b.len + bs.length := by
  induction bs generalizing b with
  | nil => rfl
  | cons v vs ih => simp [ih]; omega

@[simp] theorem Buffer.bytes_pushAll (b : Buffer) (bs : List Byte) : (b.pushAll bs).bytes = b.bytes ++ bs := by
  induction bs generalizing b with
  | nil => simp
  | cons v vs ih => simp [ih]

@[simp] theorem Buffer.bytes_empty : Buffer.empty.bytes = [] := rfl

@[simp] theorem Buffer.bytes_ofBytes (bs : List Byte) : (Buffer.ofBytes bs).bytes = bs := by
  simp [Buffer.ofBytes]

@[simp] theorem Buffer.ofBytes_len (bs : List Byte) : (Buffer.ofBytes bs).len = bs.length := by
  simp [Buffer.ofBytes, Buffer.empty]

/-- A read is the element of the byte sequence at that offset. -/
theorem Buffer.read8_eq (b : Buffer) (a : Nat) : b.read8 a = b.bytes[a]? := by
  unfold Buffer.read8
  split
  · rename_i h; simp [Buffer.bytes, h]
  · rename_i h; simp [Buffer.bytes, Nat.not_lt.1 h]

@[simp] theorem Buffer.read8_ofBytes (bs : List Byte) (a : Nat) : (Buffer.ofBytes bs).read8 a = bs[a]? := by
  rw [Buffer.read8_eq, Buffer.bytes_ofBytes]

theorem Buffer.read8_of_lt {b : Buffer} {a : Nat} (h : a < b.len) : ∃ v, b.read8 a = some v := by
  simp [Buffer.read8, h]

theorem Buffer.read16_of_lt {b : Buffer} {a : Nat} (h : a + 1 < b.len) : ∃ w, b.read16 a = some w := by
  simp [Buffer.read16, Buffer.read8, h, show a < b.len by omega]

/-- A 2-byte read is two 1-byte reads (R48). -/
theorem Buffer.read16_eq_some {b : Buffer} {a : Nat} {w : Word} :
    b.read16 a = some w ↔ ∃ b0 b1, b.read8 a = some b0 ∧ b.read8 (a + 1) = some b1 ∧ le16 b0 b1 = w := by
  unfold Buffer.read16
  cases b.read8 a <;> cases b.read8 (a + 1) <;> simp

theorem Buffer.wf_empty : Buffer.empty.wf = true := rfl

theorem Buffer.wf_push {b : Buffer} (h : b.wf = true) (v : Byte) : (b.push v).wf = true :=
  cellsWf_writeCells v (cellsWf_mono (Nat.le_succ _) h) (Nat.lt_succ_self _)

theorem Buffer.wf_pushAll {b : Buffer} (h : b.wf = true) (bs : List Byte) : (b.pushAll bs).wf = true := by
  induction bs generalizing b with
  | nil => exact h
  | cons v vs ih => exact ih (Buffer.wf_push h v)

theorem Buffer.wf_ofBytes (bs : List Byte) : (Buffer.ofBytes bs).wf = true := Buffer.wf_pushAll Buffer.wf_empty bs

theorem Buffer.wf_place {b : Buffer} (h : b.wf = true) (a : Nat) (v : Byte) : (b.place a v).wf = true :=
  cellsWf_writeCells v (cellsWf_mono (Nat.le_max_left _ _) h) (by simp [Buffer.place])

theorem Buffer.wf_placeAll {b : Buffer} (h : b.wf = true) (a : Nat) (vs : List Byte) :
    (b.placeAll a vs).wf = true := by
  induction vs generalizing a b with
  | nil => exact h
  | cons v vs ih => exact ih (Buffer.wf_place h a v) (a + 1)

/-! ### Rasters -/

theorem Raster.key_lt {r : Raster} {x y : Nat} (hx : x < r.width) (hy : y < r.height) : r.key x y < r.width * r.height := by
  unfold Raster.key
  calc y * r.width + x < y * r.width + r.width := by omega
    _ = (y + 1) * r.width := by ring
    _ ≤ r.height * r.width := Nat.mul_le_mul_right _ hy
    _ = r.width * r.height := Nat.mul_comm _ _

theorem Raster.key_inj {r : Raster} {x y x' y' : Nat} (hx : x < r.width) (hx' : x' < r.width)
    (h : r.key x y = r.key x' y') : x = x' ∧ y = y' := by
  unfold Raster.key at h
  have hy : y = y' := by
    have h1 : (y * r.width + x) / r.width = y := by
      rw [Nat.mul_comm, Nat.mul_add_div (by omega), Nat.div_eq_of_lt hx]; rfl
    have h2 : (y' * r.width + x') / r.width = y' := by
      rw [Nat.mul_comm, Nat.mul_add_div (by omega), Nat.div_eq_of_lt hx']; rfl
    rw [← h1, ← h2, h]
  subst hy
  exact ⟨by omega, rfl⟩

/-- What a pixel write can do: the row and the column are inside, and the raster changes at one key. -/
theorem Raster.setPixel_eq_some {r r' : Raster} {x y : Nat} {p : Pixel} :
    r.setPixel x y p = some r' ↔
      x < r.width ∧ y < r.height ∧ r' = { r with cells := writeCells Config.blank r.cells (r.key x y) p } := by
  unfold Raster.setPixel
  split
  · rename_i h; simp [h, eq_comm]
  · rename_i h; simp; intro h1 h2; exact absurd ⟨h1, h2⟩ h

theorem Raster.setPixel_width {r r' : Raster} {x y : Nat} {p : Pixel} (h : r.setPixel x y p = some r') :
    r'.width = r.width := by
  rw [Raster.setPixel_eq_some] at h; rw [h.2.2]

theorem Raster.setPixel_height {r r' : Raster} {x y : Nat} {p : Pixel} (h : r.setPixel x y p = some r') :
    r'.height = r.height := by
  rw [Raster.setPixel_eq_some] at h; rw [h.2.2]

/-- The written pixel reads back. -/
theorem Raster.getPixel_setPixel_self {r r' : Raster} {x y : Nat} {p : Pixel} (h : r.setPixel x y p = some r') :
    r'.getPixel x y = some p := by
  rw [Raster.setPixel_eq_some] at h
  obtain ⟨hx, hy, rfl⟩ := h
  simp [Raster.getPixel, Raster.key, hx, hy]

/-- Every other pixel is unchanged. -/
theorem Raster.getPixel_setPixel_ne {r r' : Raster} {x y x' y' : Nat} {p : Pixel} (h : r.setPixel x y p = some r')
    (hne : ¬ (x' = x ∧ y' = y)) : r'.getPixel x' y' = r.getPixel x' y' := by
  rw [Raster.setPixel_eq_some] at h
  obtain ⟨hx, hy, rfl⟩ := h
  unfold Raster.getPixel
  split
  · rename_i hin
    simp only [Option.some.injEq]
    exact readCells_writeCells_ne _ _ fun hk => hne (Raster.key_inj hin.1 hx hk)
  · rfl

theorem Raster.wf_setPixel {r r' : Raster} {x y : Nat} {p : Pixel} (hw : r.wf = true)
    (h : r.setPixel x y p = some r') : r'.wf = true := by
  rw [Raster.setPixel_eq_some] at h
  obtain ⟨hx, hy, rfl⟩ := h
  exact cellsWf_writeCells p hw (Raster.key_lt hx hy)

theorem newBlank_wf (w h : Nat) : (newBlank w h).wf = true := rfl

/-- `newBlank` initialises every pixel to `BLANK` (R44, R45). -/
theorem newBlank_getPixel {w h x y : Nat} (hx : x < w) (hy : y < h) :
    (newBlank w h).getPixel x y = some Config.blank := by
  simp [newBlank, Raster.getPixel, hx, hy]

theorem Raster.getPixel_isSome {r : Raster} {x y : Nat} (hx : x < r.width) (hy : y < r.height) :
    ∃ p, r.getPixel x y = some p := by
  simp [Raster.getPixel, hx, hy]

theorem Raster.getPixel_some_lt {r : Raster} {x y : Nat} {p : Pixel} (h : r.getPixel x y = some p) :
    x < r.width ∧ y < r.height := by
  unfold Raster.getPixel at h
  split at h
  · assumption
  · simp at h

end Sys2Proof.Machine
end

