-- ==== Sys2Proof/Laws/Codec.lean ====
section
/-! SUPPORT. The laws of the bit fields: the control byte and its two fields, the two bytes of a word, the payload words, and
the colour codec lane by lane. -/

namespace Sys2Proof

/-! ### The control byte -/

@[simp] theorem opcodeOf_controlByte (op : BitVec 3) (f : BitVec 5) : opcodeOf (controlByte op f) = op := by
  revert op f; decide

@[simp] theorem lenField_controlByte (op : BitVec 3) (f : BitVec 5) : lenField (controlByte op f) = f := by
  revert op f; decide

@[simp] theorem controlByte_opcodeOf_lenField (c : Byte) : controlByte (opcodeOf c) (lenField c) = c := by
  revert c; decide

/-- A run length in `[1, 32]` survives the 5-bit field (R64, R161). -/
theorem fieldOf_toNat {n : Nat} (h : runLengthOk n) : (fieldOf n).toNat + Config.lenBias = n := by
  obtain ⟨h1, h2⟩ := h
  simp only [Config.maxRun] at h2
  simp only [fieldOf, Config.lenBias, BitVec.toNat_ofNat]
  omega

@[simp] theorem runLength_controlByte {n : Nat} (op : BitVec 3) (h : runLengthOk n) :
    runLength (controlByte op (fieldOf n)) = n := by
  simp [runLength, fieldOf_toNat h]

/-- Every control byte carries a run length in `[1, 32]` (R64). -/
theorem runLength_ok (c : Byte) : runLengthOk (runLength c) := by
  have := (lenField c).isLt
  simp only [runLengthOk, runLength, Config.lenBias, Config.maxRun]
  omega

@[simp] theorem fieldOf_runLength (c : Byte) : fieldOf (runLength c) = lenField c := by
  simp [fieldOf, runLength]

/-! ### The two bytes of a word -/

/-- The little-endian value (R7, R47). -/
theorem le16_toNat (b0 b1 : Byte) : (le16 b0 b1).toNat = b0.toNat + 256 * b1.toNat := by
  have h := Nat.two_pow_add_eq_or_of_lt b0.isLt b1.toNat
  rw [le16, BitVec.toNat_append, Nat.shiftLeft_eq, Nat.mul_comm, ← h]
  omega

theorem lo8_toNat (w : Word) : (lo8 w).toNat = w.toNat % 256 := by
  simp [lo8, BitVec.extractLsb'_toNat]

theorem hi8_toNat (w : Word) : (hi8 w).toNat = w.toNat / 256 := by
  simp [hi8, BitVec.extractLsb'_toNat, Nat.shiftRight_eq_div_pow]
  omega

@[simp] theorem le16_lo8_hi8 (w : Word) : le16 (lo8 w) (hi8 w) = w := by
  apply BitVec.eq_of_toNat_eq
  rw [le16_toNat, lo8_toNat, hi8_toNat]
  omega

@[simp] theorem lo8_le16 (a b : Byte) : lo8 (le16 a b) = a := by
  apply BitVec.eq_of_toNat_eq
  rw [lo8_toNat, le16_toNat]
  omega

@[simp] theorem hi8_le16 (a b : Byte) : hi8 (le16 a b) = b := by
  apply BitVec.eq_of_toNat_eq
  rw [hi8_toNat, le16_toNat]
  omega

/-! ### Payload words -/

@[simp] theorem wordBytes_length (w : Word) : (wordBytes w).length = 2 := rfl

theorem flatMap_wordBytes_length (ws : List Word) : (ws.flatMap wordBytes).length = 2 * ws.length := by
  induction ws with
  | nil => rfl
  | cons w ws ih => simp [ih]; omega

theorem encodeToken_length {t : Token} (h : t.wellFormed) : (encodeToken t).length = tokenLength t.instr := by
  have := flatMap_wordBytes_length t.payload
  simp only [encodeToken, List.length_cons, tokenLength, Config.wordBytes, ← h.2.2]
  omega

@[simp] theorem takeWords_flatMap (ws : List Word) (rest : List Byte) :
    takeWords ws.length (ws.flatMap wordBytes ++ rest) = some (ws, rest) := by
  induction ws with
  | nil => rfl
  | cons w ws ih =>
    rw [List.length_cons, List.flatMap_cons, List.append_assoc]
    change (match takeWords ws.length (ws.flatMap wordBytes ++ rest) with | some (ws, rest) => _ | none => _) = _
    rw [ih, le16_lo8_hi8]

end Sys2Proof

namespace Sys2Proof.Machine

/-! ### The colour codec -/

theorem unpack555_r_toNat (w : Word) : (unpack555 w).r.toNat = 8 * (w.toNat / 1024 % 32) := by
  have h : (unpack555 w).r = ((w.extractLsb' 10 5).setWidth 8) <<< 3 := by
    ext i hi
    unfold unpack555
    interval_cases i <;> simp
  rw [h]
  simp [BitVec.extractLsb'_toNat, Nat.shiftLeft_eq, Nat.shiftRight_eq_div_pow]
  omega

theorem unpack555_g_toNat (w : Word) : (unpack555 w).g.toNat = 8 * (w.toNat / 32 % 32) := by
  have h : (unpack555 w).g = ((w.extractLsb' 5 5).setWidth 8) <<< 3 := by
    ext i hi
    unfold unpack555
    interval_cases i <;> simp
  rw [h]
  simp [BitVec.extractLsb'_toNat, Nat.shiftLeft_eq, Nat.shiftRight_eq_div_pow]
  omega

theorem unpack555_b_toNat (w : Word) : (unpack555 w).b.toNat = 8 * (w.toNat % 32) := by
  have h : (unpack555 w).b = ((w.extractLsb' 0 5).setWidth 8) <<< 3 := by
    ext i hi
    unfold unpack555
    interval_cases i <;> simp
  rw [h]
  simp [BitVec.extractLsb'_toNat, Nat.shiftLeft_eq, Nat.shiftRight_eq_div_pow]
  omega

@[simp] theorem unpack555_a (w : Word) : (unpack555 w).a = 255 := rfl

end Sys2Proof.Machine
end

