-- ==== Sys2Proof/Laws/PerInstr.lean ====
section
/-! SUPPORT. The statements made per instruction: the control byte of a well-formed instruction decodes to it. -/

namespace Sys2Proof.Laws.DecodeEncode

/-- Decoding the control byte of a well-formed instruction gives it back (R61, R64, R66). -/
def Statement (i : Instr) : Prop := i.wellFormed → decode (encodeByte i) = i

theorem pixelStream (n : Nat) : Statement (.pixelStream n) := fun h => by
  simp [encodeByte, decode, runLength_controlByte _ h]

theorem transparent (n : Nat) : Statement (.transparent n) := fun h => by
  simp [encodeByte, decode, runLength_controlByte _ h]

theorem repeatRun (n : Nat) : Statement (.repeatRun n) := fun h => by
  simp [encodeByte, decode, runLength_controlByte _ h]

theorem invalid3 (f : BitVec 5) : Statement (.invalid3 f) := fun _ => by simp [encodeByte, decode]

theorem newLine (f : BitVec 5) : Statement (.newLine f) := fun _ => by simp [encodeByte, decode]

theorem invalid5 (f : BitVec 5) : Statement (.invalid5 f) := fun _ => by simp [encodeByte, decode]

theorem invalid6 (f : BitVec 5) : Statement (.invalid6 f) := fun _ => by simp [encodeByte, decode]

theorem invalid7 (f : BitVec 5) : Statement (.invalid7 f) := fun _ => by simp [encodeByte, decode]

end Sys2Proof.Laws.DecodeEncode
end

