-- ==== Sys2Proof/Laws/State.lean ====
section
/-! SUPPORT. One lemma per field per update of the state, true by `rfl`: no later proof unfolds a record update. -/

namespace Sys2Proof.Machine

/-! ### `raiseDec` -/

@[simp] theorem raiseDec_dec (e : Error) (s : State) :
    (raiseDec e s).dec = { s.dec with status := .faulted, errCause := causeOf e, errInfo := infoOf e } :=
  rfl
@[simp] theorem raiseDec_enc (e : Error) (s : State) : (raiseDec e s).enc = s.enc := rfl
@[simp] theorem raiseDec_ib (e : Error) (s : State) : (raiseDec e s).ib = s.ib := rfl
@[simp] theorem raiseDec_img (e : Error) (s : State) : (raiseDec e s).img = s.img := rfl
@[simp] theorem raiseDec_src (e : Error) (s : State) : (raiseDec e s).src = s.src := rfl
@[simp] theorem raiseDec_ob (e : Error) (s : State) : (raiseDec e s).ob = s.ob := rfl
@[simp] theorem raiseDec_encSingleOpaque (e : Error) (s : State) :
    (raiseDec e s).encSingleOpaque = s.encSingleOpaque :=
  rfl
@[simp] theorem raiseDec_host (e : Error) (s : State) : (raiseDec e s).host = s.host := rfl
@[simp] theorem raiseDec_epoch (e : Error) (s : State) : (raiseDec e s).epoch = s.epoch := rfl

/-! ### `raiseEnc` -/

@[simp] theorem raiseEnc_dec (e : Error) (s : State) : (raiseEnc e s).dec = s.dec := rfl
@[simp] theorem raiseEnc_enc (e : Error) (s : State) :
    (raiseEnc e s).enc = { s.enc with status := .faulted, errCause := causeOf e } :=
  rfl
@[simp] theorem raiseEnc_ib (e : Error) (s : State) : (raiseEnc e s).ib = s.ib := rfl
@[simp] theorem raiseEnc_img (e : Error) (s : State) : (raiseEnc e s).img = s.img := rfl
@[simp] theorem raiseEnc_src (e : Error) (s : State) : (raiseEnc e s).src = s.src := rfl
@[simp] theorem raiseEnc_ob (e : Error) (s : State) : (raiseEnc e s).ob = s.ob := rfl
@[simp] theorem raiseEnc_encSingleOpaque (e : Error) (s : State) :
    (raiseEnc e s).encSingleOpaque = s.encSingleOpaque :=
  rfl
@[simp] theorem raiseEnc_host (e : Error) (s : State) : (raiseEnc e s).host = s.host := rfl
@[simp] theorem raiseEnc_epoch (e : Error) (s : State) : (raiseEnc e s).epoch = s.epoch := rfl

/-! ### `advX` -/

@[simp] theorem advX_dec (s : State) : (advX s).dec = { s.dec with x := (s.dec.x + 1) % s.dec.w.toNat } := rfl
@[simp] theorem advX_enc (s : State) : (advX s).enc = s.enc := rfl
@[simp] theorem advX_ib (s : State) : (advX s).ib = s.ib := rfl
@[simp] theorem advX_img (s : State) : (advX s).img = s.img := rfl
@[simp] theorem advX_src (s : State) : (advX s).src = s.src := rfl
@[simp] theorem advX_ob (s : State) : (advX s).ob = s.ob := rfl
@[simp] theorem advX_encSingleOpaque (s : State) : (advX s).encSingleOpaque = s.encSingleOpaque := rfl
@[simp] theorem advX_host (s : State) : (advX s).host = s.host := rfl
@[simp] theorem advX_epoch (s : State) : (advX s).epoch = s.epoch := rfl

/-! ### `retire` -/

@[simp] theorem retire_dec (k : Nat) (s : State) :
    (retire k s).dec = { s.dec with off := s.dec.off + k, status := decStatusAt (s.dec.off + k) s.ib.len } :=
  rfl
@[simp] theorem retire_enc (k : Nat) (s : State) : (retire k s).enc = s.enc := rfl
@[simp] theorem retire_ib (k : Nat) (s : State) : (retire k s).ib = s.ib := rfl
@[simp] theorem retire_img (k : Nat) (s : State) : (retire k s).img = s.img := rfl
@[simp] theorem retire_src (k : Nat) (s : State) : (retire k s).src = s.src := rfl
@[simp] theorem retire_ob (k : Nat) (s : State) : (retire k s).ob = s.ob := rfl
@[simp] theorem retire_encSingleOpaque (k : Nat) (s : State) : (retire k s).encSingleOpaque = s.encSingleOpaque := rfl
@[simp] theorem retire_host (k : Nat) (s : State) : (retire k s).host = s.host := rfl
@[simp] theorem retire_epoch (k : Nat) (s : State) : (retire k s).epoch = s.epoch := rfl

/-! ### `nextRow` -/

@[simp] theorem nextRow_dec (s : State) : (nextRow s).dec = { s.dec with x := 0, y := s.dec.y + 1 } := rfl
@[simp] theorem nextRow_enc (s : State) : (nextRow s).enc = s.enc := rfl
@[simp] theorem nextRow_ib (s : State) : (nextRow s).ib = s.ib := rfl
@[simp] theorem nextRow_img (s : State) : (nextRow s).img = s.img := rfl
@[simp] theorem nextRow_src (s : State) : (nextRow s).src = s.src := rfl
@[simp] theorem nextRow_ob (s : State) : (nextRow s).ob = s.ob := rfl
@[simp] theorem nextRow_encSingleOpaque (s : State) : (nextRow s).encSingleOpaque = s.encSingleOpaque := rfl
@[simp] theorem nextRow_host (s : State) : (nextRow s).host = s.host := rfl
@[simp] theorem nextRow_epoch (s : State) : (nextRow s).epoch = s.epoch := rfl

/-! ### `emit` -/

@[simp] theorem emit_dec (bs : List Byte) (s : State) : (emit bs s).dec = s.dec := rfl
@[simp] theorem emit_enc (bs : List Byte) (s : State) : (emit bs s).enc = s.enc := rfl
@[simp] theorem emit_ib (bs : List Byte) (s : State) : (emit bs s).ib = s.ib := rfl
@[simp] theorem emit_img (bs : List Byte) (s : State) : (emit bs s).img = s.img := rfl
@[simp] theorem emit_src (bs : List Byte) (s : State) : (emit bs s).src = s.src := rfl
@[simp] theorem emit_ob (bs : List Byte) (s : State) : (emit bs s).ob = s.ob.pushAll bs := rfl
@[simp] theorem emit_encSingleOpaque (bs : List Byte) (s : State) :
    (emit bs s).encSingleOpaque = s.encSingleOpaque :=
  rfl
@[simp] theorem emit_host (bs : List Byte) (s : State) : (emit bs s).host = s.host := rfl
@[simp] theorem emit_epoch (bs : List Byte) (s : State) : (emit bs s).epoch = s.epoch := rfl

/-! ### `clearRun` -/

@[simp] theorem clearRun_dec (s : State) : (clearRun s).dec = s.dec := rfl
@[simp] theorem clearRun_enc (s : State) : (clearRun s).enc = { s.enc with runLen := 0, runKind := .none } := rfl
@[simp] theorem clearRun_ib (s : State) : (clearRun s).ib = s.ib := rfl
@[simp] theorem clearRun_img (s : State) : (clearRun s).img = s.img := rfl
@[simp] theorem clearRun_src (s : State) : (clearRun s).src = s.src := rfl
@[simp] theorem clearRun_ob (s : State) : (clearRun s).ob = s.ob := rfl
@[simp] theorem clearRun_encSingleOpaque (s : State) : (clearRun s).encSingleOpaque = s.encSingleOpaque := rfl
@[simp] theorem clearRun_host (s : State) : (clearRun s).host = s.host := rfl
@[simp] theorem clearRun_epoch (s : State) : (clearRun s).epoch = s.epoch := rfl

/-! ### `flush` -/

@[simp] theorem flush_dec (s : State) : (flush s).dec = s.dec := rfl
@[simp] theorem flush_enc (s : State) : (flush s).enc = { s.enc with runLen := 0, runKind := .none } := rfl
@[simp] theorem flush_ib (s : State) : (flush s).ib = s.ib := rfl
@[simp] theorem flush_img (s : State) : (flush s).img = s.img := rfl
@[simp] theorem flush_src (s : State) : (flush s).src = s.src := rfl
@[simp] theorem flush_ob (s : State) :
    (flush s).ob = s.ob.pushAll (encodeToken (runToken s.encSingleOpaque s.enc)) :=
  rfl
@[simp] theorem flush_encSingleOpaque (s : State) : (flush s).encSingleOpaque = s.encSingleOpaque := rfl
@[simp] theorem flush_host (s : State) : (flush s).host = s.host := rfl
@[simp] theorem flush_epoch (s : State) : (flush s).epoch = s.epoch := rfl

/-! ### `addPixel` -/

@[simp] theorem addPixel_dec (k : RunKind) (p : Pixel) (s : State) : (addPixel k p s).dec = s.dec := rfl
@[simp] theorem addPixel_ib (k : RunKind) (p : Pixel) (s : State) : (addPixel k p s).ib = s.ib := rfl
@[simp] theorem addPixel_img (k : RunKind) (p : Pixel) (s : State) : (addPixel k p s).img = s.img := rfl
@[simp] theorem addPixel_src (k : RunKind) (p : Pixel) (s : State) : (addPixel k p s).src = s.src := rfl
@[simp] theorem addPixel_ob (k : RunKind) (p : Pixel) (s : State) : (addPixel k p s).ob = s.ob := rfl
@[simp] theorem addPixel_encSingleOpaque (k : RunKind) (p : Pixel) (s : State) :
    (addPixel k p s).encSingleOpaque = s.encSingleOpaque :=
  rfl
@[simp] theorem addPixel_host (k : RunKind) (p : Pixel) (s : State) : (addPixel k p s).host = s.host := rfl
@[simp] theorem addPixel_epoch (k : RunKind) (p : Pixel) (s : State) : (addPixel k p s).epoch = s.epoch := rfl

/-! ### `settleEnc` -/

@[simp] theorem settleEnc_dec (s : State) : (settleEnc s).dec = s.dec := rfl
@[simp] theorem settleEnc_enc (s : State) :
    (settleEnc s).enc = { s.enc with status := encStatusAt s.enc.y s.enc.h } :=
  rfl
@[simp] theorem settleEnc_ib (s : State) : (settleEnc s).ib = s.ib := rfl
@[simp] theorem settleEnc_img (s : State) : (settleEnc s).img = s.img := rfl
@[simp] theorem settleEnc_src (s : State) : (settleEnc s).src = s.src := rfl
@[simp] theorem settleEnc_ob (s : State) : (settleEnc s).ob = s.ob := rfl
@[simp] theorem settleEnc_encSingleOpaque (s : State) : (settleEnc s).encSingleOpaque = s.encSingleOpaque := rfl
@[simp] theorem settleEnc_host (s : State) : (settleEnc s).host = s.host := rfl
@[simp] theorem settleEnc_epoch (s : State) : (settleEnc s).epoch = s.epoch := rfl

/-! ### `decStart` -/

@[simp] theorem decStart_enc (w h : Word) (s : State) : (decStart w h s).enc = s.enc := rfl
@[simp] theorem decStart_ib (w h : Word) (s : State) : (decStart w h s).ib = s.ib := rfl
@[simp] theorem decStart_img (w h : Word) (s : State) : (decStart w h s).img = newBlank w.toNat h.toNat := rfl
@[simp] theorem decStart_src (w h : Word) (s : State) : (decStart w h s).src = s.src := rfl
@[simp] theorem decStart_ob (w h : Word) (s : State) : (decStart w h s).ob = s.ob := rfl
@[simp] theorem decStart_encSingleOpaque (w h : Word) (s : State) :
    (decStart w h s).encSingleOpaque = s.encSingleOpaque :=
  rfl
@[simp] theorem decStart_host (w h : Word) (s : State) : (decStart w h s).host = s.host := rfl
@[simp] theorem decStart_epoch (w h : Word) (s : State) : (decStart w h s).epoch = s.epoch := rfl

/-! ### `decUndefined` -/

@[simp] theorem decUndefined_enc (s : State) : (decUndefined s).enc = s.enc := rfl
@[simp] theorem decUndefined_ib (s : State) : (decUndefined s).ib = s.ib := rfl
@[simp] theorem decUndefined_img (s : State) : (decUndefined s).img = newBlank 0 0 := rfl
@[simp] theorem decUndefined_src (s : State) : (decUndefined s).src = s.src := rfl
@[simp] theorem decUndefined_ob (s : State) : (decUndefined s).ob = s.ob := rfl
@[simp] theorem decUndefined_encSingleOpaque (s : State) : (decUndefined s).encSingleOpaque = s.encSingleOpaque := rfl
@[simp] theorem decUndefined_host (s : State) : (decUndefined s).host = s.host := rfl
@[simp] theorem decUndefined_epoch (s : State) : (decUndefined s).epoch = s.epoch := rfl

/-! ### `encStart` -/

@[simp] theorem encStart_dec (s : State) : (encStart s).dec = s.dec := rfl
@[simp] theorem encStart_ib (s : State) : (encStart s).ib = s.ib := rfl
@[simp] theorem encStart_img (s : State) : (encStart s).img = s.img := rfl
@[simp] theorem encStart_src (s : State) : (encStart s).src = s.src := rfl
@[simp] theorem encStart_ob (s : State) :
    (encStart s).ob = Buffer.ofBytes (headerWrite (BitVec.ofNat 16 s.src.width) (BitVec.ofNat 16 s.src.height)) :=
  rfl
@[simp] theorem encStart_encSingleOpaque (s : State) : (encStart s).encSingleOpaque = s.encSingleOpaque := rfl
@[simp] theorem encStart_host (s : State) : (encStart s).host = s.host := rfl
@[simp] theorem encStart_epoch (s : State) : (encStart s).epoch = s.epoch := rfl

/-! ### `encUndefined` -/

@[simp] theorem encUndefined_dec (s : State) : (encUndefined s).dec = s.dec := rfl
@[simp] theorem encUndefined_ib (s : State) : (encUndefined s).ib = s.ib := rfl
@[simp] theorem encUndefined_img (s : State) : (encUndefined s).img = s.img := rfl
@[simp] theorem encUndefined_src (s : State) : (encUndefined s).src = s.src := rfl
@[simp] theorem encUndefined_ob (s : State) : (encUndefined s).ob = Buffer.empty := rfl
@[simp] theorem encUndefined_x (s : State) : (encUndefined s).enc.x = (Config.unspecWord s.epoch 5).toNat := rfl
@[simp] theorem encUndefined_y (s : State) : (encUndefined s).enc.y = (Config.unspecWord s.epoch 6).toNat := rfl
@[simp] theorem encUndefined_runLen (s : State) : (encUndefined s).enc.runLen = unspecRunLen s.epoch := rfl
@[simp] theorem encUndefined_runKind (s : State) : (encUndefined s).enc.runKind = unspecRunKind s.epoch := rfl
@[simp] theorem encUndefined_encSingleOpaque (s : State) : (encUndefined s).encSingleOpaque = s.encSingleOpaque := rfl
@[simp] theorem encUndefined_host (s : State) : (encUndefined s).host = s.host := rfl
@[simp] theorem encUndefined_epoch (s : State) : (encUndefined s).epoch = s.epoch := rfl

/-! ### The registers `addPixel` and the two starts write -/

@[simp] theorem addPixel_runLen (k : RunKind) (p : Pixel) (s : State) :
    (addPixel k p s).enc.runLen = s.enc.runLen + 1 := rfl
@[simp] theorem addPixel_runKind (k : RunKind) (p : Pixel) (s : State) :
    (addPixel k p s).enc.runKind = if s.enc.runLen = 0 then k else s.enc.runKind := rfl
@[simp] theorem addPixel_runBuf (k : RunKind) (p : Pixel) (s : State) :
    (addPixel k p s).enc.runBuf =
      if k = .opaqueRun then s.enc.runBuf.setIfInBounds s.enc.runLen (pack555 p) else s.enc.runBuf := rfl
@[simp] theorem addPixel_w (k : RunKind) (p : Pixel) (s : State) : (addPixel k p s).enc.w = s.enc.w := rfl
@[simp] theorem addPixel_h (k : RunKind) (p : Pixel) (s : State) : (addPixel k p s).enc.h = s.enc.h := rfl
@[simp] theorem addPixel_x (k : RunKind) (p : Pixel) (s : State) : (addPixel k p s).enc.x = s.enc.x := rfl
@[simp] theorem addPixel_y (k : RunKind) (p : Pixel) (s : State) : (addPixel k p s).enc.y = s.enc.y := rfl
@[simp] theorem addPixel_status (k : RunKind) (p : Pixel) (s : State) :
    (addPixel k p s).enc.status = s.enc.status := rfl
@[simp] theorem addPixel_errCause (k : RunKind) (p : Pixel) (s : State) :
    (addPixel k p s).enc.errCause = s.enc.errCause := rfl

@[simp] theorem decStart_dec (w h : Word) (s : State) :
    (decStart w h s).dec =
      { w := w, h := h, x := 0, y := 0, off := Config.headerBytes, status := decStatusAt Config.headerBytes s.ib.len,
        errCause := .noError, errInfo := 0 } := rfl

@[simp] theorem encStart_enc (s : State) :
    (encStart s).enc =
      { s.enc with w := s.src.width, h := s.src.height, x := 0, y := 0, runKind := .none, runLen := 0, status := .running,
                   errCause := .noError } := rfl

/-! ### `advXTimes`: only `DEC.X` moves -/

theorem advXTimes_eq (n : Nat) (s : State) :
    advXTimes n s = { s with dec := { s.dec with x := (advXTimes n s).dec.x } } := by
  induction n generalizing s with
  | zero => rfl
  | succ n ih => exact ih (advX s)

@[simp] theorem advXTimes_zero (s : State) : advXTimes 0 s = s := rfl
@[simp] theorem advXTimes_succ (n : Nat) (s : State) : advXTimes (n + 1) s = advXTimes n (advX s) := rfl

end Sys2Proof.Machine
end

