-- ==== Sys2Proof/Laws/Decoder.lean ====
section
/-! SUPPORT. What the decoder's shared operations can do, said once: the cursor, the drawing of a run, the payload, the drawing
tokens. -/

namespace Sys2Proof.Machine

/-! ### The cursor -/

/-- `n` single steps are one sum modulo the width (R111, R162). -/
theorem advXTimes_x (n : Nat) (s : State) : (advXTimes (n + 1) s).dec.x = (s.dec.x + (n + 1)) % s.dec.w.toNat := by
  induction n generalizing s with
  | zero => rfl
  | succ n ih =>
    rw [advXTimes_succ, ih (advX s)]
    simp only [advX_dec]
    rw [Nat.mod_add_mod]
    congr 1
    omega

/-! ### Drawing pixels -/

/-- All that `DrawPixel` can do. -/
theorem drawPixel_cases (p : Pixel) (s : State) :
    (s.dec.h.toNat ≤ s.dec.y ∧ drawPixel p s = .error (.raises .outOfBoundsPixel)) ∨
    (s.dec.y < s.dec.h.toNat ∧ s.img.setPixel s.dec.x s.dec.y p = none ∧
      drawPixel p s = .error (.refuses .pixWriteOutside)) ∨
    (s.dec.y < s.dec.h.toNat ∧ ∃ img, s.img.setPixel s.dec.x s.dec.y p = some img ∧
      drawPixel p s = .ok (advX { s with img := img })) := by
  unfold drawPixel
  split
  · exact .inl ⟨by assumption, rfl⟩
  · rename_i h
    cases hset : s.img.setPixel s.dec.x s.dec.y p with
    | none => exact .inr (.inl ⟨by omega, rfl, rfl⟩)
    | some img => exact .inr (.inr ⟨by omega, img, rfl, rfl⟩)

/-- What a run of pixels drawn from column `x` leaves at column `c` of its row: the last pixel that landed there (R117,
R118). -/
def drawnAt (w c : Nat) : Nat → List Pixel → Option Pixel
  | _, [] => none
  | x, p :: ps => (drawnAt w c ((x + 1) % w) ps).or (if x = c then some p else none)

/-- All that a run of pixels can do when it ends: the column moves by the run length, the raster changes in the cursor's
row alone, at the columns drawn, and nothing else of the state changes. -/
structure Drawn (ps : List Pixel) (s t : State) : Prop where
  frame : t = { s with dec := { s.dec with x := t.dec.x }, img := t.img }
  x_eq : ps ≠ [] → t.dec.x = (s.dec.x + ps.length) % s.dec.w.toNat
  x_nil : ps = [] → t.dec.x = s.dec.x
  width : t.img.width = s.img.width
  height : t.img.height = s.img.height
  wf : s.img.wf = true → t.img.wf = true
  pixels : ∀ c r, t.img.getPixel c r =
    if r = s.dec.y then (drawnAt s.dec.w.toNat c s.dec.x ps).or (s.img.getPixel c r) else s.img.getPixel c r
  row : ps ≠ [] → s.dec.y < s.dec.h.toNat

theorem drawAll_ok {ps : List Pixel} {s t : State} (h : drawAll ps s = .ok t) : Drawn ps s t := by
  induction ps generalizing s with
  | nil =>
    injection h with h
    subst h
    exact ⟨rfl, fun h => absurd rfl h, fun _ => rfl, rfl, rfl, id, fun c r => by simp [drawnAt], fun h => absurd rfl h⟩
  | cons p ps ih =>
    unfold drawAll at h
    rcases drawPixel_cases p s with ⟨_, hd⟩ | ⟨_, _, hd⟩ | ⟨hy, img, hset, hd⟩
    · rw [hd] at h; exact absurd h (by simp)
    · rw [hd] at h; exact absurd h (by simp)
    · rw [hd] at h
      have ht := ih h
      refine ⟨?_, fun _ => ?_, fun h => absurd h (by simp), ?_, ?_, ?_, ?_, fun _ => hy⟩
      · exact ht.frame
      · cases ps with
        | nil => rw [ht.x_nil rfl]; rfl
        | cons q qs =>
          rw [ht.x_eq (by simp)]
          simp only [advX_dec, List.length_cons]
          rw [Nat.mod_add_mod]
          congr 1
          omega
      · exact ht.width.trans (Raster.setPixel_width hset)
      · exact ht.height.trans (Raster.setPixel_height hset)
      · exact fun hw => ht.wf (Raster.wf_setPixel hw hset)
      · intro c r
        rw [ht.pixels c r]
        simp only [advX_dec, advX_img, drawnAt]
        by_cases hr : r = s.dec.y
        · subst hr
          simp only [if_true, Option.or_assoc]
          congr 1
          by_cases hc : s.dec.x = c
          · subst hc; simp [Raster.getPixel_setPixel_self hset]
          · simp [hc, Raster.getPixel_setPixel_ne hset (x' := c) (y' := s.dec.y) (fun h => hc h.1.symm)]
        · simp only [hr, if_false]
          exact Raster.getPixel_setPixel_ne hset fun h => hr h.2

/-- A run inside a raster of the declared size is drawn (R46). -/
theorem drawAll_exists (ps : List Pixel) {s : State} (hx : s.dec.x < s.dec.w.toNat) (hy : s.dec.y < s.dec.h.toNat)
    (hw : s.img.width = s.dec.w.toNat) (hh : s.img.height = s.dec.h.toNat) : ∃ t, drawAll ps s = .ok t := by
  induction ps generalizing s with
  | nil => exact ⟨s, rfl⟩
  | cons p ps ih =>
    unfold drawAll
    rcases drawPixel_cases p s with ⟨h, _⟩ | ⟨_, hset, _⟩ | ⟨_, img, hset, hd⟩
    · omega
    · simp [Raster.setPixel, hw, hh, hx, hy] at hset
    · rw [hd]
      have hx' : (s.dec.x + 1) % s.dec.w.toNat < s.dec.w.toNat := Nat.mod_lt _ (by omega)
      exact ih hx' hy (by simp [Raster.setPixel_width hset, hw]) (by simp [Raster.setPixel_height hset, hh])

/-- A run that raises, raises for its row (R105, R119). -/
theorem drawAll_raises {ps : List Pixel} {s : State} {e : Error} (h : drawAll ps s = .error (.raises e)) :
    e = .outOfBoundsPixel ∧ s.dec.h.toNat ≤ s.dec.y := by
  induction ps generalizing s with
  | nil => exact absurd h (by simp [drawAll])
  | cons p ps ih =>
    unfold drawAll at h
    rcases drawPixel_cases p s with ⟨hy, hd⟩ | ⟨_, _, hd⟩ | ⟨hy, img, hset, hd⟩
    · rw [hd] at h
      simp only [Except.error.injEq, Stop.raises.injEq] at h
      exact ⟨h.symm, hy⟩
    · rw [hd] at h; simp at h
    · rw [hd] at h
      exact ih (s := advX { s with img := img }) h

/-- A run below the image raises (R105). -/
theorem drawAll_below {ps : List Pixel} (hps : ps ≠ []) {s : State} (hy : s.dec.h.toNat ≤ s.dec.y) :
    drawAll ps s = .error (.raises .outOfBoundsPixel) := by
  cases ps with
  | nil => exact absurd rfl hps
  | cons p ps => simp [drawAll, drawPixel, hy]

/-! ### `drawnAt` -/

theorem drawnAt_eq_none {w c x : Nat} {ps : List Pixel} (hx : x < w)
    (h : ∀ i < ps.length, (x + i) % w ≠ c) : drawnAt w c x ps = none := by
  induction ps generalizing x with
  | nil => rfl
  | cons p ps ih =>
    have h0 : x ≠ c := by simpa [Nat.mod_eq_of_lt hx] using h 0 (by simp)
    have hrec := ih (x := (x + 1) % w) (Nat.mod_lt _ (by omega)) fun i hi => by
      rw [Nat.mod_add_mod]
      have := h (i + 1) (by simp; omega)
      rwa [show x + 1 + i = x + (i + 1) by omega]
    simp [drawnAt, hrec, h0]

/-- The last pixel that lands on a column is what the run leaves there (R118). -/
theorem drawnAt_last {w x : Nat} {ps : List Pixel} (hx : x < w) {i : Nat} (hi : i < ps.length)
    (hlast : ∀ j, i < j → j < ps.length → (x + j) % w ≠ (x + i) % w) :
    drawnAt w ((x + i) % w) x ps = some ps[i] := by
  induction ps generalizing x i with
  | nil => simp at hi
  | cons p ps ih =>
    have hx' : (x + 1) % w < w := Nat.mod_lt _ (by omega)
    cases i with
    | zero =>
      have hnone : drawnAt w ((x + 0) % w) ((x + 1) % w) ps = none := by
        refine drawnAt_eq_none hx' fun j hj => ?_
        rw [Nat.mod_add_mod]
        have := hlast (j + 1) (by omega) (by simp; omega)
        rwa [show x + 1 + j = x + (j + 1) by omega]
      simp only [drawnAt, hnone]
      simp [Nat.mod_eq_of_lt hx]
    | succ i =>
      have hi' : i < ps.length := by simpa using hi
      have hcol : ((x + 1) % w + i) % w = (x + (i + 1)) % w := by
        rw [Nat.mod_add_mod]; congr 1; omega
      have hrec := ih hx' hi' fun j hj hj' => by
        have := hlast (j + 1) (by omega) (by simp; omega)
        rw [hcol, Nat.mod_add_mod, show x + 1 + j = x + (j + 1) by omega]
        exact this
      rw [hcol] at hrec
      simp only [drawnAt, hrec]
      simp

/-- A column a run lands on is drawn. -/
theorem drawnAt_hit {w x : Nat} {ps : List Pixel} (hx : x < w) {i : Nat} (hi : i < ps.length) :
    ∃ p, drawnAt w ((x + i) % w) x ps = some p := by
  induction ps generalizing x i with
  | nil => simp at hi
  | cons p ps ih =>
    cases i with
    | zero => cases h : drawnAt w ((x + 0) % w) ((x + 1) % w) ps <;> simp [drawnAt, Nat.mod_eq_of_lt hx]
    | succ i =>
      obtain ⟨q, hq⟩ := ih (x := (x + 1) % w) (Nat.mod_lt _ (by omega)) (i := i) (by simpa using hi)
      rw [Nat.mod_add_mod, show x + 1 + i = x + (i + 1) by omega] at hq
      exact ⟨q, by simp [drawnAt, hq]⟩

theorem drawnAt_mem {w c x : Nat} {ps : List Pixel} {p : Pixel} (h : drawnAt w c x ps = some p) : p ∈ ps := by
  induction ps generalizing x with
  | nil => simp [drawnAt] at h
  | cons q ps ih =>
    simp only [drawnAt, Option.or_eq_some_iff] at h
    rcases h with h | ⟨_, h⟩
    · exact List.mem_cons_of_mem _ (ih h)
    · split at h
      · simp at h; simp [h]
      · simp at h

/-! ### Payloads -/

theorem colorWords_length {b : Buffer} {a n : Nat} {ws : List Word} (h : colorWords b a n = some ws) :
    ws.length = n := by
  induction n generalizing a ws with
  | zero => simp [colorWords] at h; simp [← h]
  | succ n ih =>
    unfold colorWords at h
    split at h
    · rename_i hws; simp at h; rw [← h]; simp [ih hws]
    · simp at h

/-- Word `i` of a payload is the word at `a + 2i` (R65). -/
theorem colorWords_getElem {b : Buffer} {a n : Nat} {ws : List Word} (h : colorWords b a n = some ws) {i : Nat}
    (hi : i < ws.length) : b.read16 (a + 2 * i) = some ws[i] := by
  induction n generalizing a ws i with
  | zero => simp [colorWords] at h; subst h; simp at hi
  | succ n ih =>
    unfold colorWords at h
    split at h
    · rename_i w vs hw hvs
      simp at h
      subst h
      cases i with
      | zero => simpa using hw
      | succ i =>
        have := ih hvs (i := i) (by simpa using hi)
        simp only [Config.wordBytes] at this
        rw [show a + 2 * (i + 1) = a + 2 + 2 * i by omega]
        simpa using this
    · simp at h

/-- A complete payload can be read (R41, R110). -/
theorem colorWords_exists {b : Buffer} {a n : Nat} (h : a + 2 * n ≤ b.len) : ∃ ws, colorWords b a n = some ws := by
  induction n generalizing a with
  | zero => exact ⟨[], rfl⟩
  | succ n ih =>
    obtain ⟨w, hw⟩ := Buffer.read16_of_lt (b := b) (a := a) (by omega)
    obtain ⟨ws, hws⟩ := ih (a := a + Config.wordBytes) (by simp only [Config.wordBytes]; omega)
    exact ⟨w :: ws, by simp [colorWords, hw, hws]⟩

/-- All that fetching the pixels of a `PixelStream` can do. -/
theorem streamPixels_cases (n : Nat) (s : State) :
    (s.ib.len - (s.dec.off + 1) < 2 * n ∧ streamPixels n s = .error (.raises .truncatedInput)) ∨
    (2 * n ≤ s.ib.len - (s.dec.off + 1) ∧ ∃ ws, colorWords s.ib (s.dec.off + 1) n = some ws ∧
      streamPixels n s = .ok (ws.map unpack555)) := by
  unfold streamPixels
  simp only [payloadShort, payloadOffset, Config.wordBytes]
  by_cases h : s.ib.len - (s.dec.off + 1) < 2 * n
  · exact .inl ⟨h, if_pos h⟩
  · rw [if_neg h]
    have hle : 2 * n ≤ s.ib.len - (s.dec.off + 1) := by omega
    by_cases hn : n = 0
    · subst hn; exact .inr ⟨hle, [], rfl, rfl⟩
    · obtain ⟨ws, hws⟩ := colorWords_exists (b := s.ib) (a := s.dec.off + 1) (n := n) (by omega)
      exact .inr ⟨hle, ws, hws, by rw [hws]⟩

/-- All that fetching the pixel of a `Repeat` can do. -/
theorem repeatPixels_cases (n : Nat) (s : State) :
    (s.ib.len - (s.dec.off + 1) < 2 ∧ repeatPixels n s = .error (.raises .truncatedInput)) ∨
    (2 ≤ s.ib.len - (s.dec.off + 1) ∧ ∃ w, s.ib.read16 (s.dec.off + 1) = some w ∧
      repeatPixels n s = .ok (List.replicate n (unpack555 w))) := by
  unfold repeatPixels
  simp only [payloadShort, payloadOffset, Config.wordBytes]
  by_cases h : s.ib.len - (s.dec.off + 1) < 2
  · exact .inl ⟨h, if_pos h⟩
  · rw [if_neg h]
    obtain ⟨w, hw⟩ := Buffer.read16_of_lt (b := s.ib) (a := s.dec.off + 1) (by omega)
    exact .inr ⟨by omega, w, hw, by rw [hw]⟩

/-! ### The drawing tokens -/

/-- All that a drawing token can do, its pixels fetched: draw them all and pass on, raise in the state it started in, or
meet a write outside the raster (R119, R189). -/
theorem drawToken_cases (k : Nat) (pixels : Except Stop (List Pixel)) (s : State) :
    (∃ ps u, pixels = .ok ps ∧ drawAll ps s = .ok u ∧ drawToken k pixels s = .next (retire k u)) ∨
    (∃ e, pixels = .error (.raises e) ∧ drawToken k pixels s = .next (raiseDec e s)) ∨
    (∃ ps, pixels = .ok ps ∧ s.dec.h.toNat ≤ s.dec.y ∧ drawAll ps s = .error (.raises .outOfBoundsPixel) ∧
      drawToken k pixels s = .next (raiseDec .outOfBoundsPixel s)) ∨
    (∃ r, drawToken k pixels s = .refused r) := by
  cases pixels with
  | error e =>
    cases e with
    | raises e => exact .inr (.inl ⟨e, rfl, rfl⟩)
    | refuses r => exact .inr (.inr (.inr ⟨r, rfl⟩))
  | ok ps =>
    cases hd : drawAll ps s with
    | ok u => exact .inl ⟨ps, u, rfl, hd, by simp [drawToken, hd, settle]⟩
    | error e =>
      cases e with
      | raises e =>
        obtain ⟨rfl, hy⟩ := drawAll_raises hd
        exact .inr (.inr (.inl ⟨ps, rfl, hy, hd, by simp [drawToken, hd, settle]⟩))
      | refuses r => exact .inr (.inr (.inr ⟨r, by simp [drawToken, hd, settle]⟩))

/-- All that the execution of an instruction can do when it answers a next state (R103): draw and pass on, raise in the
state it started in, or move the cursor alone. -/
theorem exec_cases {i : Instr} {s t : State} (h : exec i s = .next t) :
    (∃ ps u, drawAll ps s = .ok u ∧ (∀ p ∈ ps, ∃ w, p = unpack555 w) ∧ draws i = true ∧
      s.dec.off + tokenLength i ≤ max s.ib.len (s.dec.off + 1) ∧ t = retire (tokenLength i) u) ∨
    (∃ e, t = raiseDec e s ∧ decErrorLatched (causeOf e) (infoOf e)) ∨
    (∃ n, i = .transparent n ∧ t = retire 1 (advXTimes n s)) ∨
    (∃ f, i = .newLine f ∧ t = retire 1 (nextRow s)) := by
  have hraise : ∀ e, decErrorLatched (causeOf e) (infoOf e) → (.next (raiseDec e s) : Host.Outcome State Fault Refusal) = .next t →
      ∃ e, t = raiseDec e s ∧ decErrorLatched (causeOf e) (infoOf e) := by
    intro e he h
    injection h with h
    exact ⟨e, h.symm, he⟩
  have htr : decErrorLatched (causeOf .truncatedInput) (infoOf .truncatedInput) := by simp [decErrorLatched, causeOf, infoOf]
  have hob : decErrorLatched (causeOf .outOfBoundsPixel) (infoOf .outOfBoundsPixel) := by
    simp [decErrorLatched, causeOf, infoOf]
  cases i with
  | pixelStream n =>
    change drawToken _ (streamPixels n s) s = _ at h
    rcases drawToken_cases (1 + Config.wordBytes * n) (streamPixels n s) s with
      ⟨ps, u, hp, hd, he⟩ | ⟨e, hp, he⟩ | ⟨ps, hp, hy, hd, he⟩ | ⟨r, he⟩
    · rw [he] at h
      injection h with h
      rcases streamPixels_cases n s with ⟨_, hs⟩ | ⟨hle, ws, hws, hs⟩
      · rw [hs] at hp; simp at hp
      · rw [hs] at hp
        injection hp with hp
        refine .inl ⟨ps, u, hd, ?_, rfl, ?_, h.symm⟩
        · intro p hpm; rw [← hp] at hpm
          obtain ⟨w, _, rfl⟩ := List.mem_map.1 hpm
          exact ⟨w, rfl⟩
        · simp only [tokenLength, payloadWords, Config.wordBytes]; omega
    · rw [he] at h
      rcases streamPixels_cases n s with ⟨_, hs⟩ | ⟨_, ws, _, hs⟩
      · rw [hs] at hp
        simp only [Except.error.injEq, Stop.raises.injEq] at hp
        subst hp
        exact .inr (.inl (hraise _ htr h))
      · rw [hs] at hp; simp at hp
    · rw [he] at h; exact .inr (.inl (hraise _ hob h))
    · rw [he] at h; simp at h
  | repeatRun n =>
    change drawToken _ (repeatPixels n s) s = _ at h
    rcases drawToken_cases (1 + Config.wordBytes) (repeatPixels n s) s with
      ⟨ps, u, hp, hd, he⟩ | ⟨e, hp, he⟩ | ⟨ps, hp, hy, hd, he⟩ | ⟨r, he⟩
    · rw [he] at h
      injection h with h
      rcases repeatPixels_cases n s with ⟨_, hs⟩ | ⟨hle, w, hw, hs⟩
      · rw [hs] at hp; simp at hp
      · rw [hs] at hp
        injection hp with hp
        refine .inl ⟨ps, u, hd, ?_, rfl, ?_, h.symm⟩
        · intro p hpm; rw [← hp] at hpm
          exact ⟨w, (List.mem_replicate.1 hpm).2⟩
        · simp only [tokenLength, payloadWords, Config.wordBytes]; omega
    · rw [he] at h
      rcases repeatPixels_cases n s with ⟨_, hs⟩ | ⟨_, w, _, hs⟩
      · rw [hs] at hp
        simp only [Except.error.injEq, Stop.raises.injEq] at hp
        subst hp
        exact .inr (.inl (hraise _ htr h))
      · rw [hs] at hp; simp at hp
    · rw [he] at h; exact .inr (.inl (hraise _ hob h))
    · rw [he] at h; simp at h
  | transparent n => injection h with h; exact .inr (.inr (.inl ⟨n, rfl, h.symm⟩))
  | newLine f => injection h with h; exact .inr (.inr (.inr ⟨f, rfl, h.symm⟩))
  | invalid3 f => exact .inr (.inl (hraise _ (by simp [decErrorLatched, causeOf, infoOf]) h))
  | invalid5 f => exact .inr (.inl (hraise _ (by simp [decErrorLatched, causeOf, infoOf]) h))
  | invalid6 f => exact .inr (.inl (hraise _ (by simp [decErrorLatched, causeOf, infoOf]) h))
  | invalid7 f => exact .inr (.inl (hraise _ (by simp [decErrorLatched, causeOf, infoOf]) h))

end Sys2Proof.Machine
end

