-- ==== Sys2Proof/Laws/Encoder.lean ====
section
/-! SUPPORT. What the encoder's shared operations can do, said once: the run buffer, the flush, the step. -/

namespace Sys2Proof.Machine

/-! ### The run buffer -/

theorem runWords_length (e : EncUnit) (h : e.runLen ≤ Config.maxRun) : (runWords e).length = e.runLen := by
  simp [runWords]; exact h

theorem take_set_self {α : Type} (l : List α) (n : Nat) (a : α) (h : n < l.length) :
    (l.set n a).take (n + 1) = l.take n ++ [a] := by
  rw [List.take_add_one]
  simp [h, List.take_set, List.set_eq_of_length_le]

/-- An opaque pixel's word goes after the words of the run (R22, R143). -/
theorem runWords_addPixel_opaque (p : Pixel) (s : State) (h : s.enc.runLen < Config.maxRun) :
    runWords (addPixel .opaqueRun p s).enc = runWords s.enc ++ [pack555 p] := by
  simp only [runWords, addPixel_runBuf, addPixel_runLen, if_true]
  rw [Vector.toList_setIfInBounds]
  exact take_set_self _ _ _ (by simpa using h)

@[simp] theorem runWords_clearRun (s : State) : runWords (clearRun s).enc = [] := by simp [runWords]

@[simp] theorem runWords_flush (s : State) : runWords (flush s).enc = [] := by simp [runWords]

/-! ### The tokens of the encoder -/

@[simp] theorem encodeToken_newLineToken : encodeToken newLineToken = [0x80] := by decide

/-- The three tokens a run can become (R137). -/
theorem runToken_cases (single : SingleOpaque) (e : EncUnit) :
    (e.runKind = .transparentRun ∧ runToken single e = { instr := .transparent e.runLen, payload := [] }) ∨
    (e.runKind ≠ .transparentRun ∧ allEqual (runWords e) = true ∧ (2 ≤ e.runLen ∨ single = .repeatRun) ∧
      runToken single e = { instr := .repeatRun e.runLen, payload := (runWords e).take 1 }) ∨
    (e.runKind ≠ .transparentRun ∧ ¬ (allEqual (runWords e) = true ∧ (2 ≤ e.runLen ∨ single = .repeatRun)) ∧
      runToken single e = { instr := .pixelStream e.runLen, payload := runWords e }) := by
  unfold runToken
  split
  · exact .inl ⟨by assumption, rfl⟩
  · split
    · rename_i h1 h2; exact .inr (.inl ⟨h1, h2.1, h2.2, rfl⟩)
    · rename_i h1 h2; exact .inr (.inr ⟨h1, h2, rfl⟩)

theorem allEqual_iff (ws : List Word) : allEqual ws = true ↔ ∀ w ∈ ws, ∀ v ∈ ws, w = v := by
  cases ws with
  | nil => simp [allEqual]
  | cons w ws =>
    simp only [allEqual, List.all_eq_true, beq_iff_eq]
    constructor
    · intro h a ha b hb
      have hx : ∀ c ∈ w :: ws, c = w := by
        intro c hc
        rcases List.mem_cons.1 hc with hc | hc
        · exact hc
        · exact h c hc
      rw [hx a ha, hx b hb]
    · intro h v hv
      exact h v (by simp [hv]) w (by simp)

theorem classOf_ne_none (p : Pixel) : classOf p ≠ .none := by
  unfold classOf; split <;> simp

theorem classOf_cases (p : Pixel) :
    (p.a = 0 ∧ classOf p = .transparentRun) ∨ (p.a ≠ 0 ∧ classOf p = .opaqueRun) := by
  unfold classOf; split
  · exact .inl ⟨by assumption, rfl⟩
  · exact .inr ⟨by assumption, rfl⟩

/-! ### The step -/

/-- All that an encoder step can do (R143). -/
theorem encStep_cases (s : State) :
    (s.src.getPixel s.enc.x s.enc.y = none ∧ encStep s = .refused .pixReadOutside) ∨
    (∃ p, s.src.getPixel s.enc.x s.enc.y = some p ∧ encStep s = .next (takePixel p s)) := by
  unfold encStep
  cases h : s.src.getPixel s.enc.x s.enc.y with
  | none => exact .inl ⟨rfl, rfl⟩
  | some p => exact .inr ⟨p, rfl, rfl⟩

theorem flushBefore_cases (k : RunKind) (s : State) :
    ((s.enc.runLen = Config.maxRun ∨ 0 < s.enc.runLen ∧ s.enc.runKind ≠ k) ∧ flushBefore k s = flush s) ∨
    (¬ (s.enc.runLen = Config.maxRun ∨ 0 < s.enc.runLen ∧ s.enc.runKind ≠ k) ∧ flushBefore k s = s) := by
  unfold flushBefore
  split
  · rename_i h; exact .inl ⟨.inl h, rfl⟩
  · split
    · rename_i h1 h2; exact .inl ⟨.inr h2, rfl⟩
    · rename_i h1 h2; exact .inr ⟨by tauto, rfl⟩

theorem advanceScan_cases (s : State) :
    (s.enc.x = s.enc.w - 1 ∧
      advanceScan s =
        { emit [0x80] (flush s) with enc := { (flush s).enc with x := 0, y := s.enc.y + 1 } }) ∨
    (s.enc.x ≠ s.enc.w - 1 ∧ advanceScan s = { s with enc := { s.enc with x := s.enc.x + 1 } }) := by
  unfold advanceScan
  by_cases h : s.enc.x = s.enc.w - 1
  · exact .inl ⟨h, by rw [if_pos h, encodeToken_newLineToken]; rfl⟩
  · exact .inr ⟨h, if_neg h⟩

/-- Triggers 1 and 2 of the run detector (R134, R135): the run is flushed before a pixel of class `k` is added. -/
abbrev flushesBefore (k : RunKind) (e : EncUnit) : Prop := e.runLen = 32 ∨ (0 < e.runLen ∧ e.runKind ≠ k)

/-- The state once the pixel has joined the run, before trigger 3 (R143): what was emitted, and the run. -/
structure Joined (p : Pixel) (s u : State) : Prop where
  frame : u = { s with enc := u.enc, ob := u.ob }
  x : u.enc.x = s.enc.x
  y : u.enc.y = s.enc.y
  w : u.enc.w = s.enc.w
  h : u.enc.h = s.enc.h
  status : u.enc.status = s.enc.status
  cause : u.enc.errCause = s.enc.errCause
  ob : u.ob = s.ob.pushAll
    (if flushesBefore (classOf p) s.enc then encodeToken (runToken s.encSingleOpaque s.enc) else [])
  kind : u.enc.runKind = classOf p
  len : u.enc.runLen = if flushesBefore (classOf p) s.enc then 1 else s.enc.runLen + 1
  len_le : u.enc.runLen ≤ 32
  words : classOf p = .opaqueRun →
    runWords u.enc = (if flushesBefore (classOf p) s.enc then [] else runWords s.enc) ++ [pack555 p]

theorem joined (p : Pixel) (s : State) (hmax : s.enc.runLen ≤ 32) :
    Joined p s (addPixel (classOf p) p (flushBefore (classOf p) s)) := by
  rcases flushBefore_cases (classOf p) s with ⟨hc, h⟩ | ⟨hc, h⟩
  · have hc' : flushesBefore (classOf p) s.enc := hc
    rw [h]
    refine ⟨rfl, rfl, rfl, rfl, rfl, rfl, rfl, ?_, ?_, ?_, by simp, fun hk => ?_⟩
    · simp [hc']
    · simp
    · simp [hc']
    · rw [if_pos hc', hk, runWords_addPixel_opaque _ _ (by simp), runWords_flush]
  · have hc' : ¬ flushesBefore (classOf p) s.enc := hc
    have hlt : s.enc.runLen < 32 := by
      have : s.enc.runLen ≠ 32 := fun h => hc (.inl h)
      omega
    rw [h]
    refine ⟨rfl, rfl, rfl, rfl, rfl, rfl, rfl, ?_, ?_, ?_, by simp; omega, fun hk => ?_⟩
    · rw [if_neg hc']; rfl
    · rw [addPixel_runKind]
      split
      · rfl
      · rename_i hne
        by_contra hk
        exact hc (.inr ⟨by omega, hk⟩)
    · rw [if_neg hc']; rfl
    · rw [if_neg hc', hk, runWords_addPixel_opaque _ _ hlt]

/-- What a step does from there (R136): on to the next column, or the row ends. -/
theorem takePixel_cases (p : Pixel) (s : State) (hmax : s.enc.runLen ≤ 32) :
    ∃ u, Joined p s u ∧
      ((s.enc.x ≠ s.enc.w - 1 ∧
          takePixel p s = { u with enc := { u.enc with x := s.enc.x + 1, status := encStatusAt s.enc.y s.enc.h } }) ∨
       (s.enc.x = s.enc.w - 1 ∧
          takePixel p s = { u with
            ob := u.ob.pushAll (encodeToken (runToken s.encSingleOpaque u.enc) ++ [0x80])
            enc := { u.enc with runLen := 0, runKind := .none, x := 0, y := s.enc.y + 1,
                                status := encStatusAt (s.enc.y + 1) s.enc.h } })) := by
  have hj := joined p s hmax
  refine ⟨_, hj, ?_⟩
  unfold takePixel
  generalize addPixel (classOf p) p (flushBefore (classOf p) s) = u at hj
  have hso : u.encSingleOpaque = s.encSingleOpaque := by rw [hj.frame]
  rcases advanceScan_cases u with ⟨hx, h⟩ | ⟨hx, h⟩
  · rw [hj.x, hj.w] at hx
    refine .inr ⟨hx, ?_⟩
    rw [h, ← hso, Buffer.pushAll_append, ← hj.y, ← hj.h]
    rfl
  · rw [hj.x, hj.w] at hx
    refine .inl ⟨hx, ?_⟩
    rw [h, ← hj.y, ← hj.h, ← hj.x]
    rfl

/-- An encoder step changes the encoder's registers and `OB`, and nothing else. -/
theorem takePixel_frame (p : Pixel) (s : State) :
    takePixel p s = { s with enc := (takePixel p s).enc, ob := (takePixel p s).ob } := by
  have h1 : ∀ k, flushBefore k s = { s with enc := (flushBefore k s).enc, ob := (flushBefore k s).ob } := by
    intro k
    rcases flushBefore_cases k s with ⟨_, h⟩ | ⟨_, h⟩
    · rw [h]; rfl
    · rw [h]
  have h2 : ∀ u : State, advanceScan u = { u with enc := (advanceScan u).enc, ob := (advanceScan u).ob } := by
    intro u
    rcases advanceScan_cases u with ⟨_, h⟩ | ⟨_, h⟩
    · rw [h]; rfl
    · rw [h]
  unfold takePixel settleEnc
  rw [h2, h1]
  rfl

end Sys2Proof.Machine
end

