-- ==== Sys2Proof/Laws/Step.lean ====
section
/-! SUPPORT. What a step of the machine can do, said once: a host operation, a token, a pixel. -/

namespace Sys2Proof.Machine

/-! ### The host's operations -/

/-- All that the header checks can answer (R192). -/
theorem openDecode_cases (s : State) :
    (s.ib.len < 8 ∧ openDecode s = raiseDec .truncatedInput (decUndefined s)) ∨
    (∃ w h, headerParse s.ib = some (w, h) ∧ (w = 0 ∨ h = 0) ∧
      openDecode s = raiseDec .invalidHeader (decUndefined s)) ∨
    (∃ w h, headerParse s.ib = some (w, h) ∧ w ≠ 0 ∧ h ≠ 0 ∧ 8 ≤ s.ib.len ∧ openDecode s = decStart w h s) := by
  unfold openDecode
  by_cases hl : s.ib.len < 8
  · have : headerParse s.ib = none := by unfold headerParse; rw [if_pos hl]
    exact .inl ⟨hl, by rw [this]⟩
  · obtain ⟨w, hw⟩ := Buffer.read16_of_lt (b := s.ib) (a := 0) (by omega)
    obtain ⟨h, hh⟩ := Buffer.read16_of_lt (b := s.ib) (a := 4) (by omega)
    have hp : headerParse s.ib = some (w, h) := by
      unfold headerParse; rw [if_neg hl, hw, hh]
    rw [hp]
    by_cases hz : w = 0 ∨ h = 0
    · exact .inr (.inl ⟨w, h, rfl, hz, if_pos hz⟩)
    · exact .inr (.inr ⟨w, h, rfl, fun h => hz (.inl h), fun h => hz (.inr h), by omega, if_neg hz⟩)

/-- All that the start of an encode pass can answer (R131). -/
theorem startEncode_cases (r : Raster) (s : State) :
    ((encDimOk r.width ∧ encDimOk r.height) ∧ startEncode r s = encStart { s with src := r }) ∨
    (¬ (encDimOk r.width ∧ encDimOk r.height) ∧
      startEncode r s = raiseEnc .invalidArgument (encUndefined { s with src := r })) := by
  unfold startEncode
  by_cases h : encDimOk r.width ∧ encDimOk r.height
  · exact .inl ⟨h, if_pos h⟩
  · exact .inr ⟨h, if_neg h⟩

/-- All that a host operation can do when it answers a next state. -/
theorem hostStep_cases {op : HostOp} {s t : State} (h : hostStep op s = .next t) :
    (op = .reset ∧ t = hostReset s) ∨
    (∃ bytes, op = .startDecode bytes ∧ s.dec.status = .idle ∧ t = startDecode bytes s) ∨
    (∃ r, op = .startEncode r ∧ s.enc.status = .idle ∧ t = startEncode r s) := by
  cases op with
  | reset => injection h with h; exact .inl ⟨rfl, h.symm⟩
  | startDecode bytes =>
    simp only [hostStep] at h
    split at h
    · rename_i hi; injection h with h; exact .inr (.inl ⟨bytes, rfl, hi, h.symm⟩)
    · simp at h
  | startEncode r =>
    simp only [hostStep] at h
    split at h
    · rename_i hi; injection h with h; exact .inr (.inr ⟨r, rfl, hi, h.symm⟩)
    · simp at h

/-- What a header parses to (R80). -/
theorem headerParse_cons (b0 b1 b2 b3 b4 b5 b6 b7 : Byte) (rest : List Byte) :
    headerParse (Buffer.ofBytes ([b0, b1, b2, b3, b4, b5, b6, b7] ++ rest)) = some (le16 b0 b1, le16 b4 b5) := by
  unfold headerParse
  rw [if_neg (by simp [Config.headerBytes])]
  simp [Buffer.read16]

/-! ### The units -/

/-- A decoder step executes what the byte at the offset decodes to (R102). -/
theorem decStep_cases (s : State) :
    (∃ c, s.ib.read8 s.dec.off = some c ∧ decStep s = exec (decode c) s) ∨
    (s.ib.read8 s.dec.off = none ∧ decStep s = .refused .memReadOutside) := by
  unfold decStep fetch
  cases h : s.ib.read8 s.dec.off with
  | none => exact .inr ⟨rfl, rfl⟩
  | some c => exact .inl ⟨c, rfl, rfl⟩

/-- A pending host operation is the next step. -/
theorem step_host {s : State} {op : HostOp} {rest : List HostOp} (h : s.host = op :: rest) :
    step s = hostStep op { s with host := rest, epoch := s.epoch + 1 } := by
  simp only [step, h]

/-- With no host operation pending, all that a step can be: one of the units that run, or no step. -/
theorem step_units {s : State} (h : s.host = []) :
    (s.dec.status = .running ∧ step s = decStep s) ∨ (s.enc.status = .running ∧ step s = encStep s) ∨
    (s.dec.status ≠ .running ∧ s.enc.status ≠ .running ∧ step s = .fault .noStep) := by
  simp only [step, h, nextAgent]
  by_cases hd : s.dec.status = .running <;> by_cases he : s.enc.status = .running
  · by_cases hc : Config.decFirst s.epoch s.dec.off s.enc.y s.enc.x = true
    · exact .inl ⟨hd, by simp [hd, he, hc, agentStep]⟩
    · exact .inr (.inl ⟨he, by simp [hd, he, hc, agentStep]⟩)
  · exact .inl ⟨hd, by simp [hd, he, agentStep]⟩
  · exact .inr (.inl ⟨he, by simp [hd, he, agentStep]⟩)
  · exact .inr (.inr ⟨hd, he, by simp [hd, he]⟩)

/-- All that a step can do when it answers a next state. -/
theorem step_cases {s t : State} (h : step s = .next t) :
    (∃ op rest, s.host = op :: rest ∧ hostStep op { s with host := rest, epoch := s.epoch + 1 } = .next t) ∨
    (s.host = [] ∧ s.dec.status = .running ∧ ∃ c, s.ib.read8 s.dec.off = some c ∧ exec (decode c) s = .next t) ∨
    (s.host = [] ∧ s.enc.status = .running ∧
      ∃ p, s.src.getPixel s.enc.x s.enc.y = some p ∧ t = takePixel p s) := by
  cases hh : s.host with
  | cons op rest => rw [step_host hh] at h; exact .inl ⟨op, rest, rfl, h⟩
  | nil =>
    rcases step_units hh with ⟨hd, hs⟩ | ⟨he, hs⟩ | ⟨_, _, hs⟩
    · rw [hs] at h
      rcases decStep_cases s with ⟨c, hc, hs'⟩ | ⟨_, hs'⟩
      · rw [hs'] at h; exact .inr (.inl ⟨rfl, hd, c, hc, h⟩)
      · rw [hs'] at h; simp at h
    · rw [hs] at h
      rcases encStep_cases s with ⟨_, hs'⟩ | ⟨p, hp, hs'⟩
      · rw [hs'] at h; simp at h
      · rw [hs'] at h; injection h with h; exact .inr (.inr ⟨rfl, he, p, hp, h.symm⟩)
    · rw [hs] at h; simp at h

/-! ### The invariants read the fields of their unit alone -/

theorem DecInv.congr {s t : State} (h : DecInv s) (h1 : t.dec = s.dec) (h2 : t.ib = s.ib) (h3 : t.img = s.img) :
    DecInv t := by
  cases s
  cases t
  simp only at h1 h2 h3
  subst h1 h2 h3
  unfold DecInv at *
  simp only at *
  split <;> rename_i hst <;> simp only [hst] at h
  · trivial
  · cases h; constructor <;> assumption
  · cases h; constructor <;> assumption
  · exact h

theorem EncInv.congr {s t : State} (h : EncInv s) (h1 : t.enc = s.enc) (h2 : t.src = s.src) (h3 : t.ob = s.ob) :
    EncInv t := by
  cases s
  cases t
  simp only at h1 h2 h3
  subst h1 h2 h3
  unfold EncInv at *
  simp only at *
  split <;> rename_i hst <;> simp only [hst] at h
  · trivial
  · cases h; constructor <;> assumption
  · obtain ⟨⟨⟩, hx⟩ := h; refine ⟨?_, hx⟩; constructor <;> assumption
  · exact h

theorem EncBounds.congr {s t : State} (h : EncBounds s) (h1 : t.enc = s.enc) : EncBounds t := by
  cases h
  constructor <;> rw [h1] <;> assumption

/-- Latching an error moves neither the scan position nor the run (R186). -/
theorem EncBounds.raised {s : State} {e : Error} (h : EncBounds s) : EncBounds (raiseEnc e s) :=
  ⟨h.x_le, h.y_le, h.run_max, h.kind_none⟩

/-- A legal encode pass is within the bounds that hold always (R163). -/
theorem EncPass.bounds {s : State} (h : EncPass s) : EncBounds s where
  x_le := Nat.le_trans (Nat.le_of_lt h.x_lt) h.w_ok.2
  y_le := Nat.le_trans h.y_le h.h_ok.2
  run_max := h.run_max
  kind_none := h.kind_none

/-- A free run has at most 32 pixels (R163). -/
theorem unspecRunLen_le (epoch : Nat) : unspecRunLen epoch ≤ Config.maxRun :=
  Nat.le_of_lt_succ (Nat.mod_lt _ (Nat.succ_pos _))

/-- A free run has no class exactly when it is empty (R20). -/
theorem unspecRunKind_none_iff (epoch : Nat) : unspecRunKind epoch = .none ↔ unspecRunLen epoch = 0 := by
  unfold unspecRunKind
  split
  · simp [*]
  · split <;> simp [*]

/-- After `InvalidArgumentError` the encoder's free registers keep the bounds that hold always (R163; log entry 6). -/
theorem encUndefined_bounds (s : State) : EncBounds (encUndefined s) where
  x_le := by have := (Config.unspecWord s.epoch 5).isLt; simp only [encUndefined_x, Config.maxDim]; omega
  y_le := by have := (Config.unspecWord s.epoch 6).isLt; simp only [encUndefined_y, Config.maxDim]; omega
  run_max := unspecRunLen_le s.epoch
  kind_none := unspecRunKind_none_iff s.epoch

/-- A running encoder has rows left (R19). -/
theorem EncPass.row_lt {s : State} (h : EncPass s) (hr : s.enc.status = .running) : s.enc.y < s.enc.h := by
  have h1 := h.status
  have h2 := h.y_le
  rw [hr] at h1
  unfold encStatusAt at h1
  split at h1
  · simp at h1
  · omega

/-- A running decoder has bytes left (R16). -/
theorem DecPass.off_lt {s : State} (h : DecPass s) (hr : s.dec.status = .running) : s.dec.off < s.ib.len := by
  have h1 := h.status
  have h2 := h.off_le
  rw [hr] at h1
  unfold decStatusAt at h1
  split at h1
  · simp at h1
  · omega

theorem DecPass.inv {s : State} (h : DecPass s) : DecInv s := by
  have h1 := h.status
  unfold decStatusAt at h1
  unfold DecInv
  split at h1
  · rw [h1]; exact h
  · rw [h1]; exact h

end Sys2Proof.Machine
end

