-- ==== Sys2Proof/Laws/Pass.lean ====
section
/-! SUPPORT. Passes: what keeps a pass legal, how the steps of a pass compose, and what the decoder does with the bytes of one
token. -/

namespace Sys2Proof.Machine

/-! ### A legal pass stays legal -/

/-- A packed word has bit 15 clear (R91, R149 c). -/
theorem pack_msb (p : Pixel) : (pack555 p).msb = false := by
  unfold pack555
  simp [BitVec.msb_eq_getLsbD_last]

/-- The token of a run of 1 to 32 pixels is well-formed (R144, R171). -/
theorem runToken_wf {single : SingleOpaque} {e : EncUnit} (h0 : 0 < e.runLen) (h : e.runLen ≤ 32) :
    (runToken single e).wellFormed := by
  have hl := runWords_length e h
  rcases runToken_cases single e with ⟨_, h⟩ | ⟨_, _, _, h⟩ | ⟨_, _, h⟩ <;> rw [h]
  · exact ⟨rfl, ⟨h0, by assumption⟩, rfl⟩
  · exact ⟨rfl, ⟨h0, by assumption⟩, by simp [payloadWords]; omega⟩
  · exact ⟨rfl, ⟨h0, by assumption⟩, hl⟩

/-- A step of a running encode pass keeps it legal, and ends it only at the start of a row. -/
theorem EncPass.takePixel {s : State} {p : Pixel} (hp : EncPass s) (hr : s.enc.status = .running) :
    EncPass (takePixel p s) ∧ ((takePixel p s).enc.status = .done → (takePixel p s).enc.x = 0) := by
  have hy := hp.row_lt hr
  have hxlt := hp.x_lt
  obtain ⟨u, hj, ⟨hx, h⟩ | ⟨hx, h⟩⟩ := takePixel_cases p s hp.run_max
  all_goals have hfr := hj.frame
  · rw [h]
    refine ⟨{ w_ok := by show encDimOk u.enc.w; rw [hj.w]; exact hp.w_ok
              h_ok := by show encDimOk u.enc.h; rw [hj.h]; exact hp.h_ok
              src_width := ?_, src_height := ?_, x_lt := ?_, y_le := ?_, status := ?_, run_max := hj.len_le, run_le := ?_
              run_empty := ?_, kind_none := ?_, words := ?_, header := ?_, cause := ?_ }, ?_⟩
    · show u.src.width = u.enc.w
      rw [hj.w, ← hp.src_width]; rw [hfr]
    · show u.src.height = u.enc.h
      rw [hj.h, ← hp.src_height]; rw [hfr]
    · show s.enc.x + 1 < u.enc.w
      rw [hj.w]; omega
    · show u.enc.y ≤ u.enc.h
      rw [hj.y, hj.h]; omega
    · show encStatusAt s.enc.y s.enc.h = encStatusAt u.enc.y u.enc.h
      rw [hj.y, hj.h]
    · show u.enc.runLen ≤ s.enc.x + 1
      rw [hj.len]; have := hp.run_le; split <;> omega
    · show u.enc.runLen = 0 ↔ s.enc.x + 1 = 0
      rw [hj.len]; split <;> omega
    · show u.enc.runKind = .none ↔ u.enc.runLen = 0
      rw [hj.kind, hj.len]
      have := classOf_ne_none p
      simp [this]; split <;> omega
    · show u.enc.runKind = .opaqueRun → ∀ w ∈ runWords u.enc, w.msb = false
      rw [hj.kind]
      intro hk w hw
      rw [hj.words hk] at hw
      rcases List.mem_append.1 hw with hw | hw
      · split at hw
        · simp at hw
        · rename_i hnf
          by_cases h0 : s.enc.runLen = 0
          · have := runWords_length s.enc hp.run_max
            rw [h0] at this
            rw [List.eq_nil_of_length_eq_zero this] at hw
            simp at hw
          · refine hp.words ?_ w hw
            by_contra hne
            exact hnf (.inr ⟨by omega, by rw [hk]; exact hne⟩)
      · simp at hw; rw [hw]; exact pack_msb p
    · show 8 ≤ u.ob.len
      rw [hj.ob, Buffer.pushAll_len]; have := hp.header; simp only [Config.headerBytes] at this; omega
    · show u.enc.errCause = _
      rw [hj.cause]; exact hp.cause
    · intro hd
      have hd : encStatusAt s.enc.y s.enc.h = .done := hd
      rw [← hp.status, hr] at hd; simp at hd
  · rw [h]
    refine ⟨{ w_ok := by show encDimOk u.enc.w; rw [hj.w]; exact hp.w_ok
              h_ok := by show encDimOk u.enc.h; rw [hj.h]; exact hp.h_ok
              src_width := ?_, src_height := ?_, x_lt := ?_, y_le := ?_, status := ?_, run_max := by simp, run_le := by simp
              run_empty := by simp, kind_none := by simp, words := by simp, header := ?_, cause := ?_ }, fun _ => rfl⟩
    · show u.src.width = u.enc.w
      rw [hj.w, ← hp.src_width]; rw [hfr]
    · show u.src.height = u.enc.h
      rw [hj.h, ← hp.src_height]; rw [hfr]
    · show 0 < u.enc.w
      rw [hj.w]; omega
    · show s.enc.y + 1 ≤ u.enc.h
      rw [hj.h]; omega
    · show encStatusAt (s.enc.y + 1) s.enc.h = encStatusAt (s.enc.y + 1) u.enc.h
      rw [hj.h]
    · show 8 ≤ (u.ob.pushAll _).len
      rw [hj.ob, Buffer.pushAll_len, Buffer.pushAll_len]; have := hp.header; simp only [Config.headerBytes] at this; omega
    · show u.enc.errCause = _
      rw [hj.cause]; exact hp.cause

/-- What passing over a token must leave for the pass to stay legal. -/
theorem DecPass.retire {s u : State} {k : Nat} (hd : DecPass s) (hw : u.dec.w = s.dec.w) (hh : u.dec.h = s.dec.h)
    (hx : u.dec.x < s.dec.w.toNat) (ho : u.dec.off = s.dec.off) (hib : u.ib = s.ib) (hle : s.dec.off + k ≤ s.ib.len)
    (hy : u.dec.y + 8 ≤ s.dec.off + k) (hiw : u.img.width = s.img.width) (hih : u.img.height = s.img.height)
    (hc : u.dec.errCause = .noError) (hi : u.dec.errInfo = 0) : DecPass (retire k u) where
  w_pos := by simp [hw]; exact hd.w_pos
  h_pos := by simp [hh]; exact hd.h_pos
  x_lt := by simpa [hw] using hx
  off_le := by simpa [hib, ho] using hle
  y_le := by simpa [ho, Config.headerBytes] using hy
  img_width := by simp [hiw, hw, hd.img_width]
  img_height := by simp [hih, hh, hd.img_height]
  status := by simp
  cause := by simpa using hc
  info := by simpa using hi

theorem word_pos {w : Word} (h : w ≠ 0) : 0 < w.toNat := by
  rcases Nat.eq_zero_or_pos w.toNat with h' | h'
  · exact absurd (BitVec.eq_of_toNat_eq h') h
  · exact h'

/-- A step of a running decode pass leaves a legal pass or a latched error, and a canonical raster. -/
theorem DecPass.exec_inv {s t : State} {i : Instr} (hd : DecPass s) (hr : s.dec.status = .running) (h : exec i s = .next t) :
    DecInv t ∧ (s.img.wf = true → t.img.wf = true) := by
  have hlt := hd.off_lt hr
  have hpass : ∀ t, DecPass t → DecInv t := fun t ht => ht.inv
  have hx := hd.x_lt
  have hyl := hd.y_le
  simp only [Config.headerBytes] at hyl
  rcases exec_cases h with ⟨ps, u, hdr, _, hv, hle, rfl⟩ | ⟨e, rfl, he⟩ | ⟨n, _, rfl⟩ | ⟨f, _, rfl⟩
  · have hdr := drawAll_ok hdr
    have hf := hdr.frame
    refine ⟨hpass _ (DecPass.retire hd ?_ ?_ ?_ ?_ ?_ ?_ ?_ hdr.width hdr.height ?_ ?_), hdr.wf⟩
    · rw [hf]
    · rw [hf]
    · by_cases hn : ps = []
      · rw [hdr.x_nil hn]; exact hx
      · rw [hdr.x_eq hn]; exact Nat.mod_lt _ (by omega)
    · rw [hf]
    · rw [hf]
    · omega
    · rw [show u.dec.y = s.dec.y by rw [hf]]; omega
    · rw [hf]; exact hd.cause
    · rw [hf]; exact hd.info
  · exact ⟨he, id⟩
  · have hf := advXTimes_eq n s
    have hxx : (advXTimes n s).dec.x < s.dec.w.toNat := by
      cases n with
      | zero => exact hx
      | succ n => rw [advXTimes_x]; exact Nat.mod_lt _ (by omega)
    refine ⟨hpass _ (DecPass.retire hd ?_ ?_ hxx ?_ ?_ (by omega) ?_ ?_ ?_ ?_ ?_), ?_⟩ <;> rw [hf]
    · show s.dec.y + 8 ≤ _; omega
    · exact hd.cause
    · exact hd.info
    · exact id
  · refine ⟨hpass _ (DecPass.retire hd rfl rfl ?_ rfl rfl (by omega) ?_ rfl rfl hd.cause hd.info), id⟩
    · simp; omega
    · simp; omega

/-- The start state of a decode pass is legal (R201). -/
theorem DecPass.start {w h : Word} {s : State} (hw : w ≠ 0) (hh : h ≠ 0) (hl : 8 ≤ s.ib.len) : DecPass (decStart w h s) where
  w_pos := hw
  h_pos := hh
  x_lt := word_pos hw
  off_le := hl
  y_le := by simp
  img_width := rfl
  img_height := rfl
  status := rfl
  cause := rfl
  info := rfl

/-- In a legal decode pass no instruction is refused (R46). -/
theorem DecPass.exec_next {i : Instr} {s : State} (h : DecPass s) : ∃ t, exec i s = .next t := by
  have key : ∀ k px, (∀ r, px ≠ .error (.refuses r)) → ∃ t, drawToken k px s = .next t := by
    intro k px hpx
    rcases drawToken_cases k px s with ⟨ps, u, _, _, h⟩ | ⟨e, _, h⟩ | ⟨ps, _, _, _, h⟩ | ⟨r, hr⟩
    · exact ⟨_, h⟩
    · exact ⟨_, h⟩
    · exact ⟨_, h⟩
    · exfalso
      cases px with
      | error x =>
        cases x with
        | raises e => simp [drawToken, settle] at hr
        | refuses r => exact hpx r rfl
      | ok ps =>
        by_cases hy : s.dec.y < s.dec.h.toNat
        · obtain ⟨t, ht⟩ := drawAll_exists ps h.x_lt hy h.img_width h.img_height
          simp [drawToken, ht, settle] at hr
        · cases ps with
          | nil => simp [drawToken, drawAll, settle] at hr
          | cons p ps => simp [drawToken, drawAll_below (List.cons_ne_nil p ps) (Nat.not_lt.1 hy), settle] at hr
  cases i with
  | pixelStream n =>
    apply key
    intro r hr
    rcases streamPixels_cases n s with ⟨_, h⟩ | ⟨_, _, _, h⟩ <;> rw [h] at hr <;> simp at hr
  | repeatRun n =>
    apply key
    intro r hr
    rcases repeatPixels_cases n s with ⟨_, h⟩ | ⟨_, _, _, h⟩ <;> rw [h] at hr <;> simp at hr
  | transparent n => exact ⟨_, rfl⟩
  | newLine f => exact ⟨_, rfl⟩
  | invalid3 f => exact ⟨_, rfl⟩
  | invalid5 f => exact ⟨_, rfl⟩
  | invalid6 f => exact ⟨_, rfl⟩
  | invalid7 f => exact ⟨_, rfl⟩

/-- In a legal running decode pass the decoder has a step. -/
theorem DecPass.step_next {s : State} (hd : DecPass s) (hr : s.dec.status = .running) : ∃ c t, s.ib.read8 s.dec.off = some c ∧
    decStep s = exec (decode c) s ∧ exec (decode c) s = .next t := by
  obtain ⟨c, hc⟩ := Buffer.read8_of_lt (hd.off_lt hr)
  obtain ⟨t, ht⟩ := DecPass.exec_next (i := decode c) hd
  exact ⟨c, t, hc, by simp [decStep, fetch, hc], ht⟩

/-- The start state of an encode pass is legal (R202). -/
theorem EncPass.start {s : State} (hw : encDimOk s.src.width) (hh : encDimOk s.src.height) : EncPass (encStart s) where
  w_ok := hw
  h_ok := hh
  src_width := rfl
  src_height := rfl
  x_lt := Nat.pos_of_ne_zero hw.1
  y_le := Nat.zero_le _
  status := by rw [encStart_enc, encStatusAt, if_neg (Ne.symm hh.1)]
  run_max := Nat.zero_le _
  run_le := Nat.le_refl _
  run_empty := Iff.rfl
  kind_none := by simp
  words := by simp
  header := by simp [headerWrite, Config.headerBytes]
  cause := rfl

/-- A running encode pass has a pixel to take in (R143). -/
theorem EncPass.step_next {s : State} (h : EncPass s) (hr : s.enc.status = .running) :
    ∃ p, s.src.getPixel s.enc.x s.enc.y = some p ∧ encStep s = .next (Machine.takePixel p s) := by
  obtain ⟨p, hp⟩ := Raster.getPixel_isSome (r := s.src) (x := s.enc.x) (y := s.enc.y)
    (by rw [h.src_width]; exact h.x_lt) (by rw [h.src_height]; exact h.row_lt hr)
  exact ⟨p, hp, by simp [encStep, hp]⟩

/-! ### How the steps of a pass compose -/

/-- A pass that has ended stays ended. -/
theorem runDec_stop {s : State} (h : s.dec.status ≠ .running) (k : Nat) : runDec k s = .next s := by
  cases k with
  | zero => rfl
  | succ k => simp [runDec, h]

theorem runDec_step {s t : State} (hr : s.dec.status = .running) (h : decStep s = .next t) (k : Nat) :
    runDec (k + 1) s = runDec k t := by
  simp [runDec, hr, h]

theorem runDec_add {j k : Nat} {s t : State} (h : runDec j s = .next t) : runDec (j + k) s = runDec k t := by
  induction j generalizing s with
  | zero => injection h with h; rw [Nat.zero_add, h]
  | succ j ih =>
    by_cases hr : s.dec.status = .running
    · rw [Nat.add_right_comm]
      simp only [runDec, hr, if_true] at h ⊢
      cases hs : decStep s with
      | next u => rw [hs] at h; exact ih h
      | fault f => rw [hs] at h; simp at h
      | refused r => rw [hs] at h; simp at h
    · rw [runDec_stop hr] at h
      injection h with h
      subst h
      rw [runDec_stop hr, runDec_stop hr]

/-- How many steps are allowed does not matter once the pass has ended. -/
theorem runDec_unique {j k : Nat} {s t u : State} (hj : runDec j s = .next t) (ht : t.dec.status ≠ .running)
    (hk : runDec k s = .next u) (hu : u.dec.status ≠ .running) : t = u := by
  have h1 := runDec_add (k := k) hj
  have h2 := runDec_add (k := j) hk
  rw [runDec_stop ht] at h1
  rw [runDec_stop hu, Nat.add_comm, h1] at h2
  injection h2

theorem runEnc_stop {s : State} (h : s.enc.status ≠ .running) (k : Nat) : runEnc k s = .next s := by
  cases k with
  | zero => rfl
  | succ k => simp [runEnc, h]

theorem runEnc_step {s t : State} (hr : s.enc.status = .running) (h : encStep s = .next t) (k : Nat) :
    runEnc (k + 1) s = runEnc k t := by
  simp [runEnc, hr, h]

/-- What every pixel keeps, a legal encode pass keeps. -/
theorem runEnc_induct {P : State → Prop} {k : Nat} {s u : State}
    (hP : ∀ s p, EncPass s → s.enc.status = .running → s.src.getPixel s.enc.x s.enc.y = some p → P s → P (takePixel p s))
    (hs : EncPass s) (h0 : P s) (h : runEnc k s = .next u) : EncPass u ∧ P u := by
  induction k generalizing s with
  | zero => injection h with h; subst h; exact ⟨hs, h0⟩
  | succ k ih =>
    by_cases hr : s.enc.status = .running
    · obtain ⟨p, hp, hstep⟩ := hs.step_next hr
      rw [runEnc_step hr hstep] at h
      exact ih (hs.takePixel hr).1 (hP s p hs hr hp h0) h
    · rw [runEnc_stop hr] at h; injection h with h; subst h; exact ⟨hs, h0⟩

/-- `k` steps of a legal encode pass move the scan `k` pixels on (R130, R143, R165). -/
theorem runEnc_scan {k : Nat} {s : State} (hs : EncPass s) (hk : s.enc.y * s.enc.w + s.enc.x + k ≤ s.enc.h * s.enc.w) :
    ∃ u, runEnc k s = .next u ∧ EncPass u ∧ u.enc.w = s.enc.w ∧ u.enc.h = s.enc.h ∧
      u.enc.y * u.enc.w + u.enc.x = s.enc.y * s.enc.w + s.enc.x + k := by
  induction k generalizing s with
  | zero => exact ⟨s, rfl, hs, rfl, rfl, rfl⟩
  | succ k ih =>
    have hx := hs.x_lt
    have hy : s.enc.y < s.enc.h := by
      by_contra h
      have := Nat.mul_le_mul_right s.enc.w (Nat.not_lt.1 h)
      omega
    have hr : s.enc.status = .running := by rw [hs.status, encStatusAt, if_neg (by omega)]
    obtain ⟨p, hp, hstep⟩ := hs.step_next hr
    have key : (takePixel p s).enc.w = s.enc.w ∧ (takePixel p s).enc.h = s.enc.h ∧
        (takePixel p s).enc.y * s.enc.w + (takePixel p s).enc.x = s.enc.y * s.enc.w + s.enc.x + 1 := by
      obtain ⟨u, hj, ⟨hx', h⟩ | ⟨hx', h⟩⟩ := takePixel_cases p s hs.run_max
      · rw [h]
        refine ⟨hj.w, hj.h, ?_⟩
        show u.enc.y * s.enc.w + (s.enc.x + 1) = _
        rw [hj.y]; omega
      · rw [h]
        refine ⟨hj.w, hj.h, ?_⟩
        show (s.enc.y + 1) * s.enc.w + 0 = _
        rw [Nat.add_mul]; omega
    obtain ⟨k1, k2, k3⟩ := key
    obtain ⟨u, h1, h2, h3, h4, h5⟩ := ih (hs.takePixel (p := p) hr).1 (by rw [k1, k2, k3]; omega)
    refine ⟨u, ?_, h2, h3.trans k1, h4.trans k2, ?_⟩
    · rw [runEnc_step hr hstep]; exact h1
    · rw [h5, k1, k3]; omega

/-! ### One token in the buffer -/

theorem getElem?_of_drop {bs cs : List Byte} {a : Nat} (h : bs.drop a = cs) (i : Nat) : bs[a + i]? = cs[i]? := by
  rw [← h, List.getElem?_drop]

/-- The words of a payload that stands in the buffer are read back (R47, R65). -/
theorem colorWords_flatMap {b : Buffer} {ws : List Word} {rest : List Byte} {a : Nat}
    (h : b.bytes.drop a = ws.flatMap wordBytes ++ rest) : colorWords b a ws.length = some ws := by
  induction ws generalizing a with
  | nil => rfl
  | cons w ws ih =>
    have h0 := getElem?_of_drop h 0
    have h1 := getElem?_of_drop h 1
    have hd : b.bytes.drop (a + Config.wordBytes) = ws.flatMap wordBytes ++ rest := by
      rw [← List.drop_drop, h]; rfl
    have hw : b.read16 a = some w :=
      Buffer.read16_eq_some.2 ⟨lo8 w, hi8 w, by rw [Buffer.read8_eq]; exact h0, by rw [Buffer.read8_eq]; exact h1,
        le16_lo8_hi8 w⟩
    simp only [List.length_cons, colorWords, hw, ih hd]

/-- The pixels a token draws (R110, R112). -/
def tokenPixels (t : Token) : List Pixel :=
  match t.instr with
  | .pixelStream _ => t.payload.map unpack555
  | .transparent _ => []
  | .repeatRun n => List.replicate n (unpack555 (t.payload.headD 0))
  | .invalid3 _ => []
  | .newLine _ => []
  | .invalid5 _ => []
  | .invalid6 _ => []
  | .invalid7 _ => []

/-- All that the decoder does with one well-formed token. -/
structure TokenStep (tok : Token) (s t : State) : Prop where
  pass : DecPass t
  ib : t.ib = s.ib
  w : t.dec.w = s.dec.w
  h : t.dec.h = s.dec.h
  off : t.dec.off = s.dec.off + (encodeToken tok).length
  x : t.dec.x = if isNewLine tok.instr = true then 0 else (s.dec.x + runOf tok.instr) % s.dec.w.toNat
  y : t.dec.y = if isNewLine tok.instr = true then s.dec.y + 1 else s.dec.y
  pixels : ∀ c r, t.img.getPixel c r =
    if r = s.dec.y then (drawnAt s.dec.w.toNat c s.dec.x (tokenPixels tok)).or (s.img.getPixel c r) else s.img.getPixel c r

/-- A drawing token whose pixels are at hand draws them (R110, R112). -/
theorem drawToken_drawn {ps : List Pixel} {k : Nat} {s : State} (hd : DecPass s) (hy : s.dec.y < s.dec.h.toNat) :
    ∃ u, Drawn ps s u ∧ drawToken k (.ok ps) s = .next (retire k u) := by
  obtain ⟨u, hu⟩ := drawAll_exists ps hd.x_lt hy hd.img_width hd.img_height
  exact ⟨u, drawAll_ok hu, by simp [drawToken, hu, settle]⟩

/-- The decoder's step on a well-formed token whose row, if it draws, is inside the image (R102 to R113, R207). -/
theorem decStep_token {s : State} {tok : Token} {rest : List Byte} (hd : DecPass s)
    (hb : s.ib.bytes.drop s.dec.off = encodeToken tok ++ rest) (hw : tok.wellFormed)
    (hrow : draws tok.instr = true → s.dec.y < s.dec.h.toNat) :
    ∃ t, decStep s = .next t ∧ TokenStep tok s t := by
  have hc : s.ib.read8 s.dec.off = some (encodeByte tok.instr) := by
    rw [Buffer.read8_eq]
    simpa [encodeToken] using getElem?_of_drop hb 0
  have hdec : decode (encodeByte tok.instr) = tok.instr := by
    obtain ⟨i, ws⟩ := tok
    have hwf := hw.2.1
    cases i <;> simp only [encodeByte, decode, opcodeOf_controlByte, lenField_controlByte] <;>
      first | simp [runLength_controlByte _ hwf] | simp
  have hstep : decStep s = exec tok.instr s := by
    simp only [decStep, fetch, hc, hdec]
  have hlen := encodeToken_length hw
  have hle : s.dec.off + (encodeToken tok).length ≤ s.ib.len := by
    have := congrArg List.length hb
    simp only [List.length_drop, Buffer.bytes_length, List.length_append] at this
    have := hd.off_le
    have : 0 < (encodeToken tok).length := by simp [encodeToken]
    omega
  have hpay : s.ib.bytes.drop (s.dec.off + 1) = tok.payload.flatMap wordBytes ++ rest := by
    rw [← List.drop_drop, hb]; rfl
  have hcol := colorWords_flatMap hpay
  have hyl := hd.y_le
  simp only [Config.headerBytes] at hyl
  have hxlt := hd.x_lt
  rw [hstep]
  obtain ⟨i, ws⟩ := tok
  obtain ⟨hv, hwf, hlw⟩ := hw
  have draw : ∀ ps k n, ps.length = n → 1 ≤ n → s.dec.y < s.dec.h.toNat → k = (encodeToken ⟨i, ws⟩).length → 1 ≤ k →
      isNewLine i = false → runOf i = n → tokenPixels ⟨i, ws⟩ = ps →
      ∃ t, drawToken k (.ok ps) s = .next t ∧ TokenStep ⟨i, ws⟩ s t := by
    intro ps k n hps hn hy hk hk1 hnl hrun htp
    obtain ⟨u, hdr, hu⟩ := drawToken_drawn (ps := ps) (k := k) hd hy
    have hne : ps ≠ [] := by intro h; simp [h] at hps; omega
    have hf := hdr.frame
    refine ⟨_, hu, ⟨hd.retire ?_ ?_ ?_ ?_ ?_ (by omega) ?_ hdr.width hdr.height ?_ ?_, ?_, ?_, ?_, ?_, ?_, ?_, ?_⟩⟩
    · rw [hf]
    · rw [hf]
    · rw [hdr.x_eq hne]; exact Nat.mod_lt _ (by omega)
    · rw [hf]
    · rw [hf]
    · rw [show u.dec.y = s.dec.y by rw [hf]]; omega
    · rw [hf]; exact hd.cause
    · rw [hf]; exact hd.info
    · rw [retire_ib, hf]
    · rw [retire_dec, hf]
    · rw [retire_dec, hf]
    · show u.dec.off + k = _
      rw [hf, hk]
    · show u.dec.x = _
      rw [hdr.x_eq hne, hps, hrun, hnl]; simp
    · show u.dec.y = _
      rw [hf, hnl]; simp
    · rw [htp]; exact hdr.pixels
  cases i with
  | pixelStream n =>
    have hws : ws.length = n := hlw
    rw [hws] at hcol
    have hs : streamPixels n s = .ok (ws.map unpack555) := by
      rcases streamPixels_cases n s with ⟨h, _⟩ | ⟨_, ws', h1, h2⟩
      · exfalso
        rw [hlen] at hle
        simp only [tokenLength, payloadWords, Config.wordBytes] at hle
        have := hwf.1
        omega
      · rw [hcol] at h1; injection h1 with h1; rw [h2, ← h1]
    have := draw (ws.map unpack555) (1 + Config.wordBytes * n) n (by simpa using hws) hwf.1 (hrow rfl) hlen.symm (by omega) rfl rfl
      rfl
    rw [← hs] at this
    exact this
  | repeatRun n =>
    have hws : ws.length = 1 := hlw
    obtain ⟨w, rfl⟩ := List.length_eq_one_iff.1 hws
    have hr : s.ib.read16 (s.dec.off + 1) = some w := by
      have := colorWords_getElem hcol (i := 0) (by simp)
      simpa using this
    have hs : repeatPixels n s = .ok (List.replicate n (unpack555 w)) := by
      rcases repeatPixels_cases n s with ⟨h, _⟩ | ⟨_, w', h1, h2⟩
      · exfalso
        rw [hlen] at hle
        simp only [tokenLength, payloadWords, Config.wordBytes] at hle
        omega
      · rw [hr] at h1; injection h1 with h1; rw [h2, h1]
    have := draw (List.replicate n (unpack555 w)) (1 + Config.wordBytes) n (by simp) hwf.1 (hrow rfl) hlen.symm (by omega) rfl rfl rfl
    rw [← hs] at this
    exact this
  | transparent n =>
    have hf := advXTimes_eq n s
    have hxx : (advXTimes n s).dec.x = (s.dec.x + n) % s.dec.w.toNat := by
      obtain ⟨m, rfl⟩ : ∃ m, n = m + 1 := ⟨n - 1, by have := hwf.1; omega⟩
      exact advXTimes_x m s
    have hl1 : (encodeToken ⟨.transparent n, ws⟩).length = 1 := hlen
    rw [hl1] at hle
    refine ⟨_, rfl, ⟨hd.retire ?_ ?_ ?_ ?_ ?_ hle ?_ ?_ ?_ ?_ ?_, ?_, ?_, ?_, ?_, ?_, ?_, ?_⟩⟩
    · rw [hf]
    · rw [hf]
    · rw [hxx]; exact Nat.mod_lt _ (by omega)
    · rw [hf]
    · rw [hf]
    · rw [show (advXTimes n s).dec.y = s.dec.y by rw [hf]]; omega
    · rw [hf]
    · rw [hf]
    · rw [hf]; exact hd.cause
    · rw [hf]; exact hd.info
    · rw [retire_ib, hf]
    · rw [retire_dec, hf]
    · rw [retire_dec, hf]
    · rw [hl1]; show (advXTimes n s).dec.off + 1 = _; rw [hf]
    · exact hxx
    · show (advXTimes n s).dec.y = _; rw [hf]; rfl
    · intro c r
      rw [retire_img, hf]
      simp [tokenPixels, drawnAt]
  | newLine f =>
    have hl1 : (encodeToken ⟨.newLine f, ws⟩).length = 1 := hlen
    rw [hl1] at hle
    refine ⟨_, rfl, ⟨hd.retire (u := nextRow s) rfl rfl (by show 0 < _; omega) rfl rfl hle (by show s.dec.y + 1 + 8 ≤ _; omega) rfl rfl
      hd.cause hd.info, rfl, rfl, rfl, ?_, rfl, rfl, ?_⟩⟩
    · rw [hl1]; rfl
    · intro c r
      show s.img.getPixel c r = _
      simp [tokenPixels, drawnAt]
  | invalid3 f => simp [isValidOpcode] at hv
  | invalid5 f => simp [isValidOpcode] at hv
  | invalid6 f => simp [isValidOpcode] at hv
  | invalid7 f => simp [isValidOpcode] at hv

/-- A run that does not reach the end of its row puts its pixel `i` on column `x + i`. -/
theorem drawnAt_inside {w c x : Nat} {ps : List Pixel} (hx : x + ps.length ≤ w) :
    drawnAt w c x ps = if x ≤ c then ps[c - x]? else none := by
  induction ps generalizing x with
  | nil => simp [drawnAt]
  | cons p ps ih =>
    simp only [List.length_cons] at hx
    have hrec : drawnAt w c ((x + 1) % w) ps = if x + 1 ≤ c then ps[c - (x + 1)]? else none := by
      by_cases hl : ps = []
      · subst hl; simp [drawnAt]
      · have : 0 < ps.length := List.length_pos_of_ne_nil hl
        rw [Nat.mod_eq_of_lt (by omega)]
        exact ih (by omega)
    simp only [drawnAt, hrec]
    rcases Nat.lt_trichotomy x c with h | h | h
    · rw [show c - x = (c - (x + 1)) + 1 by omega]
      simp [Nat.ne_of_lt h, Nat.le_of_lt h, Nat.succ_le_of_lt h]
    · subst h; simp
    · simp [show ¬ x ≤ c by omega, show ¬ x + 1 ≤ c by omega, Nat.ne_of_gt h]

end Sys2Proof.Machine
end

