-- ==== Sys2Proof/Laws/RoundTrip.lean ====
section
/-! SUPPORT. What a decode pass depends on, and what it makes of the bytes an encode pass emits, token by token. -/

namespace Sys2Proof.Machine

/-! ### A decode pass depends on the decoder alone -/

/-- The decoder of two states is the same. -/
structure SameDec (s t : State) : Prop where
  dec : s.dec = t.dec
  ib : s.ib = t.ib
  img : s.img = t.img

theorem SameDec.eq {s t : State} (h : SameDec s t) :
    t = { s with enc := t.enc, src := t.src, ob := t.ob, encSingleOpaque := t.encSingleOpaque, host := t.host,
                 epoch := t.epoch } := by
  cases s; cases t; cases h; simp_all

theorem drawAll_same {ps : List Pixel} {s t u : State} (h : SameDec s t) (hs : drawAll ps s = .ok u) :
    ∃ v, drawAll ps t = .ok v ∧ SameDec u v := by
  induction ps generalizing s t with
  | nil => injection hs with hs; subst hs; exact ⟨t, rfl, h⟩
  | cons p ps ih =>
    unfold drawAll at hs ⊢
    rw [h.eq]
    rcases drawPixel_cases p s with ⟨_, hd⟩ | ⟨_, _, hd⟩ | ⟨hy, img, hset, hd⟩
    · rw [hd] at hs; simp at hs
    · rw [hd] at hs; simp at hs
    · rw [hd] at hs
      simp only [drawPixel, hset, if_neg (Nat.not_le.2 hy)]
      refine ih ?_ hs
      exact ⟨rfl, rfl, rfl⟩

theorem drawAll_same_error {ps : List Pixel} {s t : State} {e : Stop} (h : SameDec s t) (hs : drawAll ps s = .error e) :
    drawAll ps t = .error e := by
  induction ps generalizing s t with
  | nil => simp [drawAll] at hs
  | cons p ps ih =>
    unfold drawAll at hs ⊢
    rw [h.eq]
    rcases drawPixel_cases p s with ⟨hy, hd⟩ | ⟨hy, hset, hd⟩ | ⟨hy, img, hset, hd⟩
    · rw [hd] at hs
      simp only [drawPixel, hy, if_true]; exact hs
    · rw [hd] at hs
      simp only [drawPixel, hset, if_neg (Nat.not_le.2 hy)]; exact hs
    · rw [hd] at hs
      simp only [drawPixel, hset, if_neg (Nat.not_le.2 hy)]
      refine ih ?_ hs
      exact ⟨rfl, rfl, rfl⟩

theorem drawToken_same {k : Nat} {px : Except Stop (List Pixel)} {s t u : State} (h : SameDec s t)
    (hs : drawToken k px s = .next u) :
    ∃ v, drawToken k px t = .next v ∧ SameDec u v := by
  cases px with
  | error e =>
    cases e with
    | refuses r => simp [drawToken, settle] at hs
    | raises e =>
      injection hs with hs; subst hs
      exact ⟨_, rfl, ⟨by simp [h.dec], h.ib, h.img⟩⟩
  | ok ps =>
    cases hd : drawAll ps s with
    | ok u' =>
      obtain ⟨v, hv, hsame⟩ := drawAll_same h hd
      simp only [drawToken, hd, settle] at hs
      injection hs with hs; subst hs
      refine ⟨retire k v, by simp [drawToken, hv, settle], ⟨by simp [hsame.dec, hsame.ib], hsame.ib, hsame.img⟩⟩
    | error e =>
      have := drawAll_same_error h hd
      cases e with
      | refuses r => simp [drawToken, hd, settle] at hs
      | raises e =>
        simp only [drawToken, hd, settle] at hs
        injection hs with hs; subst hs
        exact ⟨raiseDec e t, by simp [drawToken, this, settle], ⟨by simp [h.dec], h.ib, h.img⟩⟩

/-- What an instruction does to the decoder depends on the decoder alone (R10). -/
theorem exec_same {i : Instr} {s t u : State} (h : SameDec s t) (hs : exec i s = .next u) :
    ∃ v, exec i t = .next v ∧ SameDec u v := by
  have hp : ∀ n, streamPixels n s = streamPixels n t := by
    intro n; unfold streamPixels; simp [payloadShort, payloadOffset, h.dec, h.ib]
  have hr : ∀ n, repeatPixels n s = repeatPixels n t := by
    intro n; unfold repeatPixels; simp [payloadShort, payloadOffset, h.dec, h.ib]
  cases i with
  | pixelStream n =>
    change drawToken _ (streamPixels n s) s = _ at hs
    show ∃ v, drawToken _ (streamPixels n t) t = _ ∧ _
    rw [← hp]; exact drawToken_same h hs
  | repeatRun n =>
    change drawToken _ (repeatPixels n s) s = _ at hs
    show ∃ v, drawToken _ (repeatPixels n t) t = _ ∧ _
    rw [← hr]; exact drawToken_same h hs
  | transparent n =>
    injection hs with hs; subst hs
    refine ⟨_, rfl, ?_⟩
    have : ∀ n (s t : State), SameDec s t → SameDec (advXTimes n s) (advXTimes n t) := by
      intro n
      induction n with
      | zero => intro s t h; exact h
      | succ n ih => intro s t h; exact ih _ _ ⟨by simp [h.dec], h.ib, h.img⟩
    have := this n s t h
    exact ⟨by simp [this.dec, this.ib], this.ib, this.img⟩
  | newLine f =>
    injection hs with hs; subst hs
    exact ⟨_, rfl, ⟨by simp [nextRow, h.dec, h.ib], h.ib, h.img⟩⟩
  | invalid3 f => injection hs with hs; subst hs; exact ⟨_, rfl, ⟨by simp [h.dec], h.ib, h.img⟩⟩
  | invalid5 f => injection hs with hs; subst hs; exact ⟨_, rfl, ⟨by simp [h.dec], h.ib, h.img⟩⟩
  | invalid6 f => injection hs with hs; subst hs; exact ⟨_, rfl, ⟨by simp [h.dec], h.ib, h.img⟩⟩
  | invalid7 f => injection hs with hs; subst hs; exact ⟨_, rfl, ⟨by simp [h.dec], h.ib, h.img⟩⟩

/-! ### The bytes of an encode pass, decoded -/

/-- The pixel a raster pixel comes back as after encoding and decoding (R170). -/
def quant (p : Pixel) : Pixel := if p.a = 0 then Config.blank else unpack555 (pack555 p)

/-- A decoder that stands at column `col` of row `row`, with every pixel of `r` before it drawn and every other blank. -/
structure At (r : Raster) (col row : Nat) (d : State) : Prop where
  pass : DecPass d
  w : d.dec.w.toNat = r.width
  h : d.dec.h.toNat = r.height
  x : d.dec.x = col % r.width
  y : d.dec.y = row
  pixels : ∀ c y p, r.getPixel c y = some p →
    d.img.getPixel c y = some (if y < row ∨ (y = row ∧ c < col) then quant p else Config.blank)

/-- A decoder started on `bytes` followed by anything comes to the end of `bytes`, standing at `(col, row)`. -/
def Decodes (r : Raster) (col row : Nat) (bytes : List Byte) : Prop :=
  ∀ rest s, ∃ k d,
    runDec k (startDecode (bytes ++ rest) s) = .next d ∧ At r col row d ∧ d.ib.bytes.drop d.dec.off = rest

/-- One more token after them. -/
theorem Decodes.token {r : Raster} {col row col' row' : Nat} {bs : List Byte} {tok : Token} (h : Decodes r col row bs)
    (hw : tok.wellFormed) (hrow : draws tok.instr = true → row < r.height)
    (hat : ∀ d t, At r col row d → TokenStep tok d t → At r col' row' t) : Decodes r col' row' (bs ++ encodeToken tok) := by
  intro rest s
  obtain ⟨k, d, hk, hd, hb⟩ := h (encodeToken tok ++ rest) s
  have hr : d.dec.status = .running := by
    have := congrArg List.length hb
    simp [encodeToken] at this
    rw [hd.pass.status, decStatusAt, if_neg (by omega)]
  obtain ⟨t, hs, ht⟩ := decStep_token hd.pass hb hw (by rw [hd.y, hd.h]; exact hrow)
  refine ⟨k + 1, t, ?_, hat d t hd ht, ?_⟩
  · rw [List.append_assoc, runDec_add hk, runDec_step hr hs]; rfl
  · rw [ht.ib, ht.off, ← List.drop_drop, hb]; simp

/-- The accumulated run of `e` holds the pixels of `r` from `(col, row)` on (R20 to R22). -/
structure RunIs (r : Raster) (col row : Nat) (e : EncUnit) : Prop where
  len : e.runLen ≤ 32
  fits : col + e.runLen ≤ r.width
  row_lt : row < r.height
  kind : 0 < e.runLen → e.runKind ≠ .none
  pix : ∀ i < e.runLen, ∃ p, r.getPixel (col + i) row = some p ∧ classOf p = e.runKind ∧
    (e.runKind = .opaqueRun → (runWords e)[i]? = some (pack555 p))

/-- What the decoder draws for the token of a run (R137, R144). -/
theorem runToken_facts {single : SingleOpaque} {e : EncUnit} (h : e.runLen ≤ 32) (h0 : 0 < e.runLen) :
    runOf (runToken single e).instr = e.runLen ∧ isNewLine (runToken single e).instr = false ∧
    tokenPixels (runToken single e) = if e.runKind = .transparentRun then [] else (runWords e).map unpack555 := by
  have hl := runWords_length e h
  rcases runToken_cases single e with ⟨hk, h⟩ | ⟨hk, ha, _, h⟩ | ⟨hk, _, h⟩ <;> rw [h]
  · exact ⟨rfl, rfl, by rw [if_pos hk]; rfl⟩
  · refine ⟨rfl, rfl, ?_⟩
    rw [if_neg hk]
    cases hws : runWords e with
    | nil => rw [hws] at hl; simp at hl; omega
    | cons w ws =>
      have ha := (allEqual_iff _).1 ha
      rw [hws] at ha hl
      show List.replicate e.runLen (unpack555 w) = _
      symm
      rw [List.eq_replicate_iff]
      refine ⟨by simp at hl ⊢; omega, ?_⟩
      intro p hp
      obtain ⟨v, hv, rfl⟩ := List.mem_map.1 hp
      rw [ha v hv w (by simp)]
  · exact ⟨rfl, rfl, by rw [if_neg hk]; rfl⟩

/-- The token of the accumulated run after them. -/
theorem Decodes.run {r : Raster} {col row : Nat} {bs : List Byte} {e : EncUnit} (single : SingleOpaque)
    (h : Decodes r col row bs) (hr : RunIs r col row e) (h0 : 0 < e.runLen) :
    Decodes r (col + e.runLen) row (bs ++ encodeToken (runToken single e)) := by
  obtain ⟨f1, f2, f3⟩ := runToken_facts (single := single) hr.len h0
  refine h.token (runToken_wf h0 hr.len) (fun _ => hr.row_lt) fun d t hd ht => ?_
  have hfits := hr.fits
  have hl := runWords_length e hr.len
  refine ⟨ht.pass, by rw [ht.w, hd.w], by rw [ht.h, hd.h], ?_, ?_, ?_⟩
  · rw [ht.x, f2, f1, hd.x, hd.w]; simp
  · rw [ht.y, f2, hd.y]; simp
  · intro c y p hp
    rw [ht.pixels, f3, hd.y, hd.w, hd.x, Nat.mod_eq_of_lt (by omega : col < r.width), hd.pixels c y p hp]
    by_cases hy : y = row
    · subst hy
      simp only [if_true, Nat.lt_irrefl, true_and, false_or]
      rw [drawnAt_inside (by split <;> simp <;> omega)]
      by_cases hc : col ≤ c
      · by_cases hc2 : c < col + e.runLen
        · obtain ⟨q, hq, hcl, hwd⟩ := hr.pix (c - col) (by omega)
          rw [show col + (c - col) = c by omega, hp] at hq
          injection hq with hq
          subst hq
          rcases classOf_cases p with ⟨ha, hk⟩ | ⟨ha, hk⟩ <;> rw [hk] at hcl
          · simp [← hcl, quant, ha]
          · rw [if_pos hc, ← hcl, if_neg (by simp), List.getElem?_map, hwd hcl.symm]
            simp [hc2, show quant p = unpack555 (pack555 p) from if_neg ha]
        · have : (if e.runKind = .transparentRun then [] else (runWords e).map unpack555)[c - col]? = none := by
            rw [List.getElem?_eq_none_iff]
            split
            · simp
            · simp; omega
          rw [if_pos hc, this]
          simp [hc2, show ¬ c < col by omega]
      · rw [if_neg hc]
        simp [show c < col by omega, show c < col + e.runLen by omega]
    · simp [hy]

/-- The end of a row after them (R142). -/
theorem Decodes.newLine {r : Raster} {row : Nat} {bs : List Byte} (h : Decodes r r.width row bs) :
    Decodes r 0 (row + 1) (bs ++ [0x80]) := by
  rw [← encodeToken_newLineToken]
  refine h.token ⟨rfl, trivial, rfl⟩ (fun h => by simp [newLineToken, draws] at h) fun d t hd ht => ?_
  refine ⟨ht.pass, by rw [ht.w, hd.w], by rw [ht.h, hd.h], ?_, ?_, ?_⟩
  · rw [ht.x]; simp [isNewLine, newLineToken]
  · rw [ht.y, hd.y]; rfl
  · intro c y p hp
    have hlt := (Raster.getPixel_some_lt hp).1
    rw [ht.pixels, hd.pixels c y p hp]
    simp only [tokenPixels, newLineToken, drawnAt, Option.none_or, ite_self]
    congr 2
    simp; omega

end Sys2Proof.Machine
end

