-- ==== Sys2Proof/Certificates/Slice0/Obligations.lean ====
section
/-! DEFINITION. The statements for the provers, from the numbered rules of `spec/`. Rules are cited in each docstring. -/

open Sys2Proof Sys2Proof.Machine

/-! ### Encoding -/

/-- R66: the complete map of the control byte, all 256 values: the token, its run length, and its format (`CS`, `CW`, `C`) as the
number of bytes of the token (R60). -/
def Obligations.OpcodeMapComplete : Prop :=
  ∀ c : Byte,
    (c.toNat < 0x20 →
      decode c = .pixelStream (c.toNat - 0x00 + 1) ∧ tokenLength (decode c) = 1 + 2 * (c.toNat - 0x00 + 1)) ∧
    (0x20 ≤ c.toNat ∧ c.toNat < 0x40 → decode c = .transparent (c.toNat - 0x20 + 1) ∧ tokenLength (decode c) = 1) ∧
    (0x40 ≤ c.toNat ∧ c.toNat < 0x60 → decode c = .repeatRun (c.toNat - 0x40 + 1) ∧ tokenLength (decode c) = 3) ∧
    (0x60 ≤ c.toNat ∧ c.toNat < 0x80 →
      decode c = .invalid3 (BitVec.ofNat 5 (c.toNat - 0x60)) ∧ isValidOpcode (decode c) = false) ∧
    (0x80 ≤ c.toNat ∧ c.toNat < 0xA0 →
      decode c = .newLine (BitVec.ofNat 5 (c.toNat - 0x80)) ∧ tokenLength (decode c) = 1) ∧
    (0xA0 ≤ c.toNat ∧ c.toNat < 0xC0 →
      decode c = .invalid5 (BitVec.ofNat 5 (c.toNat - 0xA0)) ∧ isValidOpcode (decode c) = false) ∧
    (0xC0 ≤ c.toNat ∧ c.toNat < 0xE0 →
      decode c = .invalid6 (BitVec.ofNat 5 (c.toNat - 0xC0)) ∧ isValidOpcode (decode c) = false) ∧
    (0xE0 ≤ c.toNat →
      decode c = .invalid7 (BitVec.ofNat 5 (c.toNat - 0xE0)) ∧ isValidOpcode (decode c) = false) ∧
    (c.toNat < 0x60 ∨ (0x80 ≤ c.toNat ∧ c.toNat < 0xA0) → isValidOpcode (decode c) = true)

/-- The words written out from the spec's encodings (R61, R72 and the examples of `95_test_vectors.md`) decode to the
instructions they stand for. -/
def Obligations.SpecWordsDecode : Prop :=
  decode 0x00 = .pixelStream 1 ∧ decode 0x1F = .pixelStream 32 ∧ decode 0x20 = .transparent 1 ∧
  decode 0x3F = .transparent 32 ∧ decode 0x5F = .repeatRun 32 ∧ decode 0x47 = .repeatRun 8 ∧ decode 0x60 = .invalid3 0 ∧
  decode 0x80 = .newLine 0 ∧ decode 0x9F = .newLine 31 ∧ decode 0xA0 = .invalid5 0 ∧ decode 0xDF = .invalid6 31 ∧
  decode 0xFF = .invalid7 31 ∧
  decodeToken [0x00, 0x00, 0x7C, 0x80] = .ok (⟨.pixelStream 1, [0x7C00]⟩, [0x80]) ∧
  decodeToken [0x5F, 0x43, 0x04] = .ok (⟨.repeatRun 32, [0x0443]⟩, [])

/-- R60, R63, R64, R65, R72: decoding the bytes of a well-formed token gives the token back, whatever follows it: every
run length, every colour word, bit 15 included. -/
def Obligations.TokenDecodesAsEncoded : Prop :=
  ∀ (t : Token) (rest : List Byte), t.wellFormed → decodeToken (encodeToken t ++ rest) = .ok (t, rest)

/-- The other direction: the bytes a token was decoded from are its encoding, and the token is well-formed. -/
def Obligations.DecodedTokenReencodes : Prop :=
  ∀ (bs rest : List Byte) (t : Token),
    decodeToken bs = .ok (t, rest) → t.wellFormed ∧ encodeToken t ++ rest = bs

/-- R63: the tokens of a stream can be found only one way, by walking from its start. -/
def Obligations.TokenStreamUnambiguous : Prop :=
  ∀ ts us : List Token, (∀ t ∈ ts, t.wellFormed) → (∀ u ∈ us, u.wellFormed) → encodeTokens ts = encodeTokens us → ts = us

/-! ### The colour codec and the header codec -/

/-- R90, R91, R96: the colour codec lane by lane: unpacking multiplies each 5-bit field by 8 and sets alpha 255, bit 15
having no effect; packing places each channel divided by 8 in its field, bit 15 clear. -/
def Obligations.ColorCodecByLanes : Prop :=
  (∀ w : Word,
    (unpack555 w).r.toNat = 8 * (w.toNat / 1024 % 32) ∧ (unpack555 w).g.toNat = 8 * (w.toNat / 32 % 32) ∧
    (unpack555 w).b.toNat = 8 * (w.toNat % 32) ∧ (unpack555 w).a = 255 ∧ unpack555 w = unpack555 (w &&& 0x7FFF#16)) ∧
  (∀ p : Pixel,
    (pack555 p).toNat = 1024 * (p.r.toNat / 8) + 32 * (p.g.toNat / 8) + p.b.toNat / 8 ∧ (pack555 p).msb = false)

/-- R92 and R94: packing undoes unpacking but for bit 15, and quantization is stable after the first pass. -/
def Obligations.PackAfterUnpack : Prop :=
  (∀ w : Word, pack555 (unpack555 w) = w &&& 0x7FFF#16) ∧
  (∀ p : Pixel, pack555 (unpack555 (pack555 p)) = pack555 p) ∧
  (∀ w : Word, unpack555 (pack555 (unpack555 w)) = unpack555 w)

/-- R93: unpacking what was packed keeps the five high bits of each channel, so a channel loses at most 7, and the alpha is
255 whatever it was. -/
def Obligations.UnpackAfterPack : Prop :=
  ∀ p : Pixel,
    unpack555 (pack555 p) = ⟨p.r &&& 0xF8#8, p.g &&& 0xF8#8, p.b &&& 0xF8#8, 255⟩ ∧
    ((unpack555 (pack555 p)).r.toNat ≤ p.r.toNat ∧ p.r.toNat ≤ (unpack555 (pack555 p)).r.toNat + 7) ∧
    ((unpack555 (pack555 p)).g.toNat ≤ p.g.toNat ∧ p.g.toNat ≤ (unpack555 (pack555 p)).g.toNat + 7) ∧
    ((unpack555 (pack555 p)).b.toNat ≤ p.b.toNat ∧ p.b.toNat ≤ (unpack555 (pack555 p)).b.toNat + 7)

/-- R91, R95: two pixels have one colour word exactly when the five high bits of each colour channel agree; the alpha is
not read. -/
def Obligations.PackEqualIffHighBitsEqual : Prop :=
  ∀ p q : Pixel,
    pack555 p = pack555 q ↔
      p.r.toNat / 8 = q.r.toNat / 8 ∧ p.g.toNat / 8 = q.g.toNat / 8 ∧ p.b.toNat / 8 = q.b.toNat / 8

/-- R83: the round trip of the header, both ways. -/
def Obligations.HeaderRoundTrip : Prop :=
  (∀ (w h : Word) (rest : List Byte), headerParse (Buffer.ofBytes (headerWrite w h ++ rest)) = some (w, h)) ∧
  (∀ b0 b1 b2 b3 b4 b5 b6 b7 : Byte, ∀ rest : List Byte, ∃ w h : Word,
    headerParse (Buffer.ofBytes ([b0, b1, b2, b3, b4, b5, b6, b7] ++ rest)) = some (w, h) ∧
    headerWrite w h = [b0, b1, 0, 0, b4, b5, 0, 0])

/-! ### The decoder's step -/

/-- R102, R103: when the byte at `DEC.OFF` is `c`, the decoder's step executes the instruction `c` decodes to, a well-formed
one, and the step adds nothing around it. Where the encoder runs too, the step is that or the encoder's (the MODEL's
choice, log entry 3: the spec gives no order between the units). -/
def Obligations.StepRunsDecodedInstruction : Prop :=
  ∀ (s : State) (c : Byte), s.host = [] → s.dec.status = .running → s.ib.read8 s.dec.off = some c →
    (decode c).wellFormed ∧
    (s.enc.status ≠ .running → step s = exec (decode c) s) ∧
    (s.enc.status = .running → step s = exec (decode c) s ∨ step s = encStep s)

/-- R10: the two units share no state: when both can step, the order does not matter. -/
def Obligations.UnitStepsCommute : Prop :=
  ∀ s t u : State, decStep s = .next t → encStep s = .next u →
    ∃ v, encStep t = .next v ∧ decStep u = .next v

/-- R110: `PixelStream`. That `STATUS` is `Done` exactly when the new offset is `LEN` is read from R16 and R102 (log entry 16,
DEDUCED). Its payload short, truncation is taken, whatever the row; else below the image, out of
bounds; else the `n` words of the payload are unpacked and written from the cursor on, in run order, the column modulo
the width and the row unchanged, so that the last write to a pixel stands and every other pixel is unchanged. -/
def Obligations.PixelStreamMeaning : Prop :=
  ∀ (n : Nat) (s : State), runLengthOk n →
    (s.ib.len - (s.dec.off + 1) < 2 * n →
      exec (.pixelStream n) s =
        .next { s with dec := { s.dec with status := .faulted, errCause := .truncatedInput, errInfo := 0 } }) ∧
    (2 * n ≤ s.ib.len - (s.dec.off + 1) → s.dec.h.toNat ≤ s.dec.y →
      exec (.pixelStream n) s =
        .next { s with dec := { s.dec with status := .faulted, errCause := .outOfBoundsPixel, errInfo := 0 } }) ∧
    (2 * n ≤ s.ib.len - (s.dec.off + 1) → s.dec.y < s.dec.h.toNat → s.dec.x < s.dec.w.toNat →
      s.img.width = s.dec.w.toNat → s.img.height = s.dec.h.toNat →
      ∃ img : Raster,
        exec (.pixelStream n) s =
          .next { s with
            dec := { s.dec with
              x := (s.dec.x + n) % s.dec.w.toNat
              off := s.dec.off + (1 + 2 * n)
              status := if s.dec.off + (1 + 2 * n) = s.ib.len then .done else .running }
            img := img } ∧
        img.width = s.img.width ∧ img.height = s.img.height ∧
        (∀ i < n, (∀ j, i < j → j < n → (s.dec.x + j) % s.dec.w.toNat ≠ (s.dec.x + i) % s.dec.w.toNat) →
          ∃ w, s.ib.read16 (s.dec.off + 1 + 2 * i) = some w ∧
            img.getPixel ((s.dec.x + i) % s.dec.w.toNat) s.dec.y = some (unpack555 w)) ∧
        (∀ c r, (r = s.dec.y → ∀ i < n, (s.dec.x + i) % s.dec.w.toNat ≠ c) → img.getPixel c r = s.img.getPixel c r))

/-- R112: `Repeat`, as `PixelStreamMeaning` with one word for all `n` pixels. That `STATUS` is `Done` exactly when the new
offset is `LEN` is read from R16 and R102 (log entry 16, DEDUCED). -/
def Obligations.RepeatMeaning : Prop :=
  ∀ (n : Nat) (s : State), runLengthOk n →
    (s.ib.len - (s.dec.off + 1) < 2 →
      exec (.repeatRun n) s =
        .next { s with dec := { s.dec with status := .faulted, errCause := .truncatedInput, errInfo := 0 } }) ∧
    (2 ≤ s.ib.len - (s.dec.off + 1) → s.dec.h.toNat ≤ s.dec.y →
      exec (.repeatRun n) s =
        .next { s with dec := { s.dec with status := .faulted, errCause := .outOfBoundsPixel, errInfo := 0 } }) ∧
    (2 ≤ s.ib.len - (s.dec.off + 1) → s.dec.y < s.dec.h.toNat → s.dec.x < s.dec.w.toNat →
      s.img.width = s.dec.w.toNat → s.img.height = s.dec.h.toNat →
      ∃ (w : Word) (img : Raster),
        s.ib.read16 (s.dec.off + 1) = some w ∧
        exec (.repeatRun n) s =
          .next { s with
            dec := { s.dec with
              x := (s.dec.x + n) % s.dec.w.toNat
              off := s.dec.off + 3
              status := if s.dec.off + 3 = s.ib.len then .done else .running }
            img := img } ∧
        img.width = s.img.width ∧ img.height = s.img.height ∧
        (∀ i < n, img.getPixel ((s.dec.x + i) % s.dec.w.toNat) s.dec.y = some (unpack555 w)) ∧
        (∀ c r, (r = s.dec.y → ∀ i < n, (s.dec.x + i) % s.dec.w.toNat ≠ c) → img.getPixel c r = s.img.getPixel c r))

/-- R111: `Transparent` in any state: the column moves by `n` modulo the width, the offset by 1, `STATUS` is `Done`
exactly when the new offset is `LEN`, else `Running` (read from R16 and R102: log entry 16, DEDUCED), and nothing else
changes, no pixel among it. In a state of width 0, which no pass reaches, the modulus is undefined (R162) and the column said
here is the MODEL's choice (log entry 20). -/
def Obligations.TransparentMeaning : Prop :=
  ∀ (n : Nat) (s : State), runLengthOk n →
    exec (.transparent n) s =
      .next { s with dec := { s.dec with
        x := (s.dec.x + n) % s.dec.w.toNat
        off := s.dec.off + 1
        status := if s.dec.off + 1 = s.ib.len then .done else .running } }

/-- R113: `NewLine` in any state, whatever its field: column 0, the next row, the offset by 1, `STATUS` `Done` exactly when
the new offset is `LEN`, else `Running` (read from R16 and R102: log entry 16, DEDUCED), nothing else, even where the next
row is below the image; and no other token changes the row. -/
def Obligations.NewLineMeaning : Prop :=
  (∀ (f : BitVec 5) (s : State),
    exec (.newLine f) s =
      .next { s with dec := { s.dec with
        x := 0
        y := s.dec.y + 1
        off := s.dec.off + 1
        status := if s.dec.off + 1 = s.ib.len then .done else .running } }) ∧
  (∀ (i : Instr) (s t : State), exec i s = .next t → isNewLine i = false → t.dec.y = s.dec.y)

/-- R114, R182: each invalid opcode takes `UnknownOpcodeError` with its own 3-bit opcode, whatever its field and wherever
the cursor is; the cursor, the offset and the raster stay. -/
def Obligations.InvalidOpcodesMeaning : Prop :=
  ∀ (f : BitVec 5) (s : State),
    exec (.invalid3 f) s =
      .next { s with dec := { s.dec with status := .faulted, errCause := .unknownOpcode, errInfo := 3 } } ∧
    exec (.invalid5 f) s =
      .next { s with dec := { s.dec with status := .faulted, errCause := .unknownOpcode, errInfo := 5 } } ∧
    exec (.invalid6 f) s =
      .next { s with dec := { s.dec with status := .faulted, errCause := .unknownOpcode, errInfo := 6 } } ∧
    exec (.invalid7 f) s =
      .next { s with dec := { s.dec with status := .faulted, errCause := .unknownOpcode, errInfo := 7 } }

/-- R187: the cause code of each error; R180, R186: `UnknownOpcodeError` alone records a value, its opcode, and every other
error latches 0. -/
def Obligations.CauseCodes : Prop :=
  codeOf .noError = 0 ∧ codeOf (causeOf .truncatedInput) = 1 ∧
  (∀ op, codeOf (causeOf (.unknownOpcode op)) = 2 ∧ infoOf (.unknownOpcode op) = op) ∧
  codeOf (causeOf .outOfBoundsPixel) = 3 ∧ codeOf (causeOf .invalidArgument) = 4 ∧ codeOf (causeOf .invalidHeader) = 5 ∧
  infoOf .truncatedInput = 0 ∧ infoOf .outOfBoundsPixel = 0 ∧ infoOf .invalidArgument = 0 ∧ infoOf .invalidHeader = 0

/-- R189 (R119): a token that faults latches its error and leaves everything else as it was before the token: no pixel,
no cursor, no offset. -/
def Obligations.FaultingTokenChangesNothingElse : Prop :=
  ∀ (i : Instr) (s t : State), exec i s = .next t → t.dec.status = .faulted →
    t = { s with dec := { s.dec with status := .faulted, errCause := t.dec.errCause, errInfo := t.dec.errInfo } } ∧
    decErrorLatched t.dec.errCause t.dec.errInfo

/-- The frame of every instruction (R11, R17, R40, R52, R166): a token writes neither the encoder, nor any buffer, nor the
header registers; its error registers only when it raises; and the raster only where a drawing token stands, in the
cursor's row, inside its dimensions. -/
def Obligations.TokenFrame : Prop :=
  ∀ (i : Instr) (s t : State), exec i s = .next t →
    t.enc = s.enc ∧ t.ib = s.ib ∧ t.ob = s.ob ∧ t.src = s.src ∧ t.encSingleOpaque = s.encSingleOpaque ∧ t.host = s.host ∧
    t.epoch = s.epoch ∧ t.dec.w = s.dec.w ∧ t.dec.h = s.dec.h ∧
    (t.dec.status ≠ .faulted → t.dec.errCause = s.dec.errCause ∧ t.dec.errInfo = s.dec.errInfo) ∧
    (draws i = false → t.img = s.img) ∧
    t.img.width = s.img.width ∧ t.img.height = s.img.height ∧
    (∀ c r, r ≠ s.dec.y → t.img.getPixel c r = s.img.getPixel c r)

/-- R15: how each token advances `DEC.OFF`, and that it cannot pass `LEN`. -/
def Obligations.OffsetAdvance : Prop :=
  (∀ n, tokenLength (.pixelStream n) = 1 + 2 * n ∧ tokenLength (.repeatRun n) = 3 ∧ tokenLength (.transparent n) = 1) ∧
  (∀ f, tokenLength (.newLine f) = 1) ∧
  (∀ (i : Instr) (s t : State), exec i s = .next t →
    (t.dec.status ≠ .faulted →
      isValidOpcode i = true ∧ t.dec.off = s.dec.off + tokenLength i ∧ (s.dec.off < s.ib.len → t.dec.off ≤ s.ib.len)) ∧
    (t.dec.status = .faulted → t.dec.off = s.dec.off))

/-! ### Passes over and not begun -/

/-- R188, R16, R24: no step exists when no unit runs and the host asks for nothing (the fault is the MODEL's, log entry 14); a unit that is not running keeps its
registers and its memory while the other steps. -/
def Obligations.IdleUnitsStay : Prop :=
  ∀ s : State, s.host = [] →
    (s.dec.status ≠ .running → s.enc.status ≠ .running → step s = .fault .noStep) ∧
    (∀ t, step s = .next t → s.dec.status ≠ .running → t.dec = s.dec ∧ t.img = s.img ∧ t.ib = s.ib) ∧
    (∀ t, step s = .next t → s.enc.status ≠ .running → t.enc = s.enc ∧ t.ob = s.ob ∧ t.src = s.src)

/-- R16 and R24: the only transitions of the two `STATUS` registers that a step makes. -/
def Obligations.StatusTransitions : Prop :=
  ∀ s t : State, step s = .next t →
    (t.dec.status = s.dec.status ∨ (t.dec.status = .idle ∧ t.enc.status = .idle ∧ s.host.head? = some .reset) ∨
      (s.dec.status = .idle ∧ ∃ bytes, s.host.head? = some (.startDecode bytes)) ∨
      (s.dec.status = .running ∧ (t.dec.status = .done ∨ t.dec.status = .faulted))) ∧
    (t.enc.status = s.enc.status ∨ (t.dec.status = .idle ∧ t.enc.status = .idle ∧ s.host.head? = some .reset) ∨
      (s.enc.status = .idle ∧ (t.enc.status = .running ∨ t.enc.status = .faulted) ∧
        ∃ r, s.host.head? = some (.startEncode r)) ∨
      (s.enc.status = .running ∧ t.enc.status = .done))

/-- R200: `reset` puts both units in `Idle`, from any state, and abandons any pass. That it is the head of a pending list, that
the parameter stays and that the next step is then `noStep` are the MODEL's choices (log entries 2, 13, 14). -/
def Obligations.ResetIdlesBothUnits : Prop :=
  ∀ (s : State) (rest : List HostOp), s.host = .reset :: rest →
    ∃ t, step s = .next t ∧ t.dec.status = .idle ∧ t.enc.status = .idle ∧ t.host = rest ∧
      t.encSingleOpaque = s.encSingleOpaque ∧ (rest = [] → step t = .fault .noStep)

/-- R201, whole, with the checks of R80, R82 and R192: the start of a decode pass. Fewer than 8 bytes: `TruncatedInputError`;
else a zero dimension: `InvalidHeaderError`; else the whole start state, the raster blank, `Done` at once when the stream
is empty. In every case the encoder is untouched. -/
def Obligations.DecodeStart : Prop :=
  ∀ (s : State) (bytes : List Byte),
    let t := startDecode bytes s
    t.enc = s.enc ∧ t.src = s.src ∧ t.ob = s.ob ∧ t.encSingleOpaque = s.encSingleOpaque ∧ t.host = s.host ∧
      t.epoch = s.epoch ∧ t.ib.bytes = bytes ∧ t.ib.len = bytes.length ∧
      (bytes.length < 8 →
        t.dec.status = .faulted ∧ t.dec.errCause = .truncatedInput ∧ t.dec.errInfo = 0) ∧
      (∀ b0 b1 b2 b3 b4 b5 b6 b7 body, bytes = [b0, b1, b2, b3, b4, b5, b6, b7] ++ body →
        (le16 b0 b1 = 0 ∨ le16 b4 b5 = 0 →
          t.dec.status = .faulted ∧ t.dec.errCause = .invalidHeader ∧ t.dec.errInfo = 0) ∧
        (le16 b0 b1 ≠ 0 → le16 b4 b5 ≠ 0 →
          t.dec = { w := le16 b0 b1, h := le16 b4 b5, x := 0, y := 0, off := 8,
                    status := if body = [] then .done else .running, errCause := .noError, errInfo := 0 } ∧
          t.img.width = (le16 b0 b1).toNat ∧ t.img.height = (le16 b4 b5).toNat ∧
          (∀ x < (le16 b0 b1).toNat, ∀ y < (le16 b4 b5).toNat, t.img.getPixel x y = some ⟨0, 0, 0, 0⟩)))

/-- R202, whole, with the start check of R131: the start of an encode pass. A dimension of 0 or above 65535:
`InvalidArgumentError` with `OB` empty; else the whole start state, `OB` the 8 header bytes. In every case the decoder is
untouched. -/
def Obligations.EncodeStart : Prop :=
  ∀ (s : State) (r : Raster),
    let t := startEncode r s
    t.dec = s.dec ∧ t.img = s.img ∧ t.ib = s.ib ∧ t.src = r ∧ t.encSingleOpaque = s.encSingleOpaque ∧ t.host = s.host ∧
      t.epoch = s.epoch ∧
      (r.width = 0 ∨ r.height = 0 ∨ 65535 < r.width ∨ 65535 < r.height →
        t.enc.status = .faulted ∧ t.enc.errCause = .invalidArgument ∧ t.ob.bytes = []) ∧
      (1 ≤ r.width → r.width ≤ 65535 → 1 ≤ r.height → r.height ≤ 65535 →
        t.enc.w = r.width ∧ t.enc.h = r.height ∧ t.enc.x = 0 ∧ t.enc.y = 0 ∧ t.enc.runKind = .none ∧ t.enc.runLen = 0 ∧
        t.enc.status = .running ∧ t.enc.errCause = .noError ∧ 1 ≤ t.enc.w * t.enc.h ∧
        t.ob.bytes = [BitVec.ofNat 8 r.width, BitVec.ofNat 8 (r.width / 256), 0, 0,
                      BitVec.ofNat 8 r.height, BitVec.ofNat 8 (r.height / 256), 0, 0])

/-- The MODEL's choice (log entry 2): the next step performs a pending `start` of an idle unit, and refuses by name that of a
unit that is not idle (R16 and R24 give `STATUS` no transition for it). -/
def Obligations.PendingStartIsTheStep : Prop :=
  ∀ (s : State) (rest : List HostOp),
    (∀ bytes, s.host = .startDecode bytes :: rest →
      (s.dec.status = .idle → step s = .next (startDecode bytes { s with host := rest, epoch := s.epoch + 1 })) ∧
      (s.dec.status ≠ .idle → step s = .refused .startNotIdle)) ∧
    (∀ r, s.host = .startEncode r :: rest →
      (s.enc.status = .idle → step s = .next (startEncode r { s with host := rest, epoch := s.epoch + 1 })) ∧
      (s.enc.status ≠ .idle → step s = .refused .startNotIdle))

/-! ### The encoder -/

/-- R144 with R139, R140 and R141: a flush of a run of `n` pixels appends exactly the bytes of the token the classifier
names, and empties the accumulator. That `ENC.RUN_BUF` keeps its entries, which R22 leaves without a defined value, is the
MODEL's choice (log entry 7). -/
def Obligations.FlushWritesTheRun : Prop :=
  ∀ s : State, 1 ≤ s.enc.runLen → s.enc.runLen ≤ 32 →
    ∃ bs : List Byte, (flush s).ob.bytes = s.ob.bytes ++ bs ∧
      (flush s).enc = { s.enc with runLen := 0, runKind := .none } ∧
      flush s = { s with enc := (flush s).enc, ob := (flush s).ob } ∧
      (s.enc.runKind = .transparentRun → bs = [BitVec.ofNat 8 (0x20 + (s.enc.runLen - 1))]) ∧
      (s.enc.runKind ≠ .transparentRun → ∀ w, (runWords s.enc).head? = some w →
        ((∀ v ∈ runWords s.enc, v = w) ∧ (2 ≤ s.enc.runLen ∨ s.encSingleOpaque = .repeatRun) →
          bs = [BitVec.ofNat 8 (0x40 + (s.enc.runLen - 1)), lo8 w, hi8 w]) ∧
        (¬ ((∀ v ∈ runWords s.enc, v = w) ∧ (2 ≤ s.enc.runLen ∨ s.encSingleOpaque = .repeatRun)) →
          bs = BitVec.ofNat 8 (s.enc.runLen - 1) :: (runWords s.enc).flatMap fun v => [lo8 v, hi8 v]))

/-- R143 with R132 to R136: one step of a running encoder takes in the pixel at the scan position. It flushes the run
first exactly when the run is full or of the other class; the pixel joins the run; on the last column the run is
flushed, `0x80` emitted and the scan goes to the next row, else to the next column. Nothing but the encoder's registers
and `OB` changes. That `STATUS` is `Done` exactly when the scan has left the last row is read from R24 and R211 (log entry
16, DEDUCED). -/
def Obligations.EncoderStepTakesOnePixel : Prop :=
  ∀ s : State, EncPass s → s.enc.status = .running →
    ∃ (p : Pixel) (t : State), s.src.getPixel s.enc.x s.enc.y = some p ∧ encStep s = .next t ∧
      t = { s with enc := t.enc, ob := t.ob } ∧ t.enc.w = s.enc.w ∧ t.enc.h = s.enc.h ∧ t.enc.errCause = s.enc.errCause ∧
      (let k := classOf p
       let full := s.enc.runLen = 32 ∨ (0 < s.enc.runLen ∧ s.enc.runKind ≠ k)
       let before : List Byte := if full then encodeToken (runToken s.encSingleOpaque s.enc) else []
       let words : List Word :=
         (if full then [] else runWords s.enc) ++ (if k = .opaqueRun then [pack555 p] else [])
       let n := if full then 1 else s.enc.runLen + 1
       let run : EncUnit → Prop := fun e =>
         e.runKind = k ∧ e.runLen = n ∧ (k = .opaqueRun → runWords e = words)
       (s.enc.x + 1 < s.enc.w →
          t.enc.x = s.enc.x + 1 ∧ t.enc.y = s.enc.y ∧ run t.enc ∧ t.enc.status = .running ∧
          t.ob.bytes = s.ob.bytes ++ before) ∧
       (s.enc.x + 1 = s.enc.w →
          t.enc.x = 0 ∧ t.enc.y = s.enc.y + 1 ∧ t.enc.runLen = 0 ∧ t.enc.runKind = .none ∧
          t.enc.status = (if s.enc.y + 1 = s.enc.h then .done else .running) ∧
          ∃ e : EncUnit, run e ∧
            t.ob.bytes = s.ob.bytes ++ before ++ encodeToken (runToken s.encSingleOpaque e) ++ [0x80]))

/-- R42, R148: a step of a running encoder never changes a byte already emitted, and emits at most 69 bytes. -/
def Obligations.EncoderEmitsAtMost69Bytes : Prop :=
  ∀ s t : State, EncPass s → encStep s = .next t →
    ∃ bs : List Byte, t.ob.bytes = s.ob.bytes ++ bs ∧ bs.length ≤ 69

/-- R149 b and c, R171: every run an encoder between two steps can flush becomes a well-formed token, its run length in
`[1, 32]`, its colour words with bit 15 clear. -/
def Obligations.FlushedRunIsWellFormed : Prop :=
  ∀ s : State, EncPass s → 0 < s.enc.runLen →
    (runToken s.encSingleOpaque s.enc).wellFormed ∧
    ∀ w ∈ (runToken s.encSingleOpaque s.enc).payload, w.msb = false

/-! ### Whole passes -/

/-- R174: from any bytes at all a decode pass ends, after at most `LEN - 8` steps, in exactly one of an image of the header's
dimensions or one of the decoder's errors, and its result depends on nothing but the bytes. -/
def Obligations.DecodePassEnds : Prop :=
  ∀ (bytes : List Byte) (s : State),
    ∃ t, decodePass bytes s = .next t ∧ runDec (bytes.length - 8) (startDecode bytes s) = .next t ∧
      ((t.dec.status = .done ∧
          ∃ w h, headerParse (Buffer.ofBytes bytes) = some (w, h) ∧ t.img.width = w.toNat ∧ t.img.height = h.toNat) ∨
        (t.dec.status = .faulted ∧ decErrorLatched t.dec.errCause t.dec.errInfo)) ∧
      ∀ s' t', decodePass bytes s' = .next t' → decResult t' = decResult t

/-- R115 with the source's Scenario C: a header alone, with dimensions that are not zero, decodes without error to the
blank image. -/
def Obligations.EmptyStreamIsBlank : Prop :=
  ∀ (w h : Word) (s : State), w ≠ 0 → h ≠ 0 →
    ∃ t, decodePass (headerWrite w h) s = .next t ∧ t.dec.status = .done ∧ t.img.width = w.toNat ∧ t.img.height = h.toNat ∧
      ∀ x < w.toNat, ∀ y < h.toNat, t.img.getPixel x y = some ⟨0, 0, 0, 0⟩

/-- R207: a well-formed buffer decodes without fault; its last row keeps the bound of R207 (c) too (log entry 21, DEDUCED). -/
def Obligations.WellFormedBufferDecodes : Prop :=
  ∀ (bytes : List Byte) (s : State), wellFormedBuffer bytes →
    ∃ t, decodePass bytes s = .next t ∧ t.dec.status = .done

/-- R175: with both dimensions in `[1, 65535]` an encode pass ends in `Done` after exactly `W * H` steps; with any other
dimensions it ends at once with `InvalidArgumentError` and an empty `OB`. -/
def Obligations.EncodePassEnds : Prop :=
  ∀ (r : Raster) (s : State),
    (1 ≤ r.width → r.width ≤ 65535 → 1 ≤ r.height → r.height ≤ 65535 →
      (∃ t, runEnc (r.width * r.height) (startEncode r s) = .next t ∧ t.enc.status = .done ∧ t.enc.errCause = .noError) ∧
      ∀ k < r.width * r.height, ∃ u, runEnc k (startEncode r s) = .next u ∧ u.enc.status = .running) ∧
    (r.width = 0 ∨ r.height = 0 ∨ 65535 < r.width ∨ 65535 < r.height →
      ∃ t, encodePass r s = .next t ∧ t = startEncode r s ∧ t.enc.status = .faulted ∧ t.enc.errCause = .invalidArgument ∧
        t.ob.bytes = [])

/-- R149: the shape of every byte buffer the encoder produces: the header with zero reserved fields, then well-formed
tokens whose colour words have bit 15 clear, each row's runs adding up to exactly the width and ending with one `0x80`,
one for each row, the last byte being `0x80`. -/
def Obligations.EncoderOutputShape : Prop :=
  ∀ (r : Raster) (s t : State), encDimOk r.width → encDimOk r.height → encodePass r s = .next t →
    ∃ ts : List Token,
      t.ob.bytes = headerWrite (BitVec.ofNat 16 r.width) (BitVec.ofNat 16 r.height) ++ encodeTokens ts ∧
      exactRows r.width r.height 0 ts ∧ (∀ tok ∈ ts, ∀ w ∈ tok.payload, w.msb = false) ∧
      t.ob.bytes.getLast? = some 0x80

/-- R147 (R133, R138): what an encode pass emits depends on nothing of a raster but its dimensions, its transparent
positions and the colour words of its opaque pixels: on rasters that agree in these, the pass ends in the same state. -/
def Obligations.EncoderReadsOnlyClassAndWord : Prop :=
  ∀ (r r' : Raster) (s t : State), r.width = r'.width → r.height = r'.height →
    (∀ x y p q, r.getPixel x y = some p → r'.getPixel x y = some q →
      (p.a = 0 ↔ q.a = 0) ∧ (p.a ≠ 0 → pack555 p = pack555 q)) →
    encodePass r s = .next t → encodePass r' s = .next { t with src := r' }

/-- R170: encoding a raster and decoding the bytes, for both values of `ENC_SINGLE_OPAQUE`: neither pass faults, the
dimensions come back, a transparent pixel comes back as `{0,0,0,0}`, and any other with its channels truncated to their
five high bits and alpha 255. -/
def Obligations.RoundTrip : Prop :=
  ∀ (r : Raster) (s s' : State), encDimOk r.width → encDimOk r.height →
    ∃ t u, encodePass r s = .next t ∧ t.enc.status = .done ∧ decodePass t.ob.bytes s' = .next u ∧ u.dec.status = .done ∧
      u.img.width = r.width ∧ u.img.height = r.height ∧
      ∀ x y p, r.getPixel x y = some p →
        u.img.getPixel x y =
          some (if p.a = 0 then ⟨0, 0, 0, 0⟩ else ⟨p.r &&& 0xF8#8, p.g &&& 0xF8#8, p.b &&& 0xF8#8, 255⟩)

/-- R173: encoding, decoding and encoding again gives the same bytes. -/
def Obligations.ReencodeSameBytes : Prop :=
  ∀ (r : Raster) (s s' s'' t u v : State), encDimOk r.width → encDimOk r.height →
    s''.encSingleOpaque = s.encSingleOpaque →
    encodePass r s = .next t → decodePass t.ob.bytes s' = .next u → encodePass u.img s'' = .next v →
    v.ob.bytes = t.ob.bytes

/-- R172, for any buffer that decodes: encoding the image and decoding again gives the image back, pixel for pixel. -/
def Obligations.DecodedImageIsStable : Prop :=
  ∀ (bytes : List Byte) (s s' s'' t u v : State),
    decodePass bytes s = .next t → t.dec.status = .done → encodePass t.img s' = .next u →
    decodePass u.ob.bytes s'' = .next v →
    v.dec.status = .done ∧ v.img.width = t.img.width ∧ v.img.height = t.img.height ∧
      ∀ x y, v.img.getPixel x y = t.img.getPixel x y

/-! ### Invariants -/

/-- The invariant holds right after reset. Both units are `Idle` there by R200; the other registers' values are the MODEL's
choice (log entries 4 and 7), and the invariant rests on none of them. -/
def Obligations.InvAtReset : Prop := Inv State.reset ∧ ImgInv State.reset

/-- R11 to R24: every step of the machine, of either unit or of the host, keeps the invariant; the bounds of R163 on the
encoder's position and run are part of it in every status, a fault included. -/
def Obligations.StepKeepsInv : Prop := ∀ s t : State, Inv s → step s = .next t → Inv t

/-- R121: every step keeps every pixel of the decoder's raster one that the decoder can deliver. -/
def Obligations.StepKeepsDecodedPixels : Prop := ∀ s t : State, ImgInv s → step s = .next t → ImgInv t

/-- R46, R41: in a legal state no step reads a buffer or a raster, or writes a raster, outside its bounds: with no host
operation pending, a step is refused for nothing. -/
def Obligations.LegalStepsStayInBounds : Prop :=
  ∀ (s : State) (r : Refusal), Inv s → s.host = [] → step s ≠ .refused r
end

