-- ==== Sys2Proof/Tests/Slice0.lean ====
section
/-! SUPPORT. Tests by named theorems. Expected values come from `spec/95_test_vectors.md` (V-…) and from the examples in the
rules, each named beside its test. After them, for every statement with hypotheses, a witness that meets them. -/

namespace Sys2Proof.Tests

open Sys2Proof Sys2Proof.Machine

/-! ### Helpers -/

/-- The next state of an outcome, if it is one. -/
def nextOf (o : Host.Outcome State Fault Refusal) : Option State :=
  match o with
  | .next s => some s
  | .fault _ => none
  | .refused _ => none

/-- A decode pass of a `w` by `h` image just started over a token stream. -/
def dec0 (w h : Word) (body : List Byte) : State := startDecode (headerWrite w h ++ body) State.reset

/-- The same, with the cursor moved. -/
def decAt (w h : Word) (x y : Nat) (body : List Byte) : State :=
  { dec0 w h body with dec := { (dec0 w h body).dec with x := x, y := y } }

/-- `(DEC.OFF, DEC.X, DEC.Y, DEC.STATUS)`, the trace of the vectors. -/
def trace (o : Host.Outcome State Fault Refusal) : Option (Nat × Nat × Nat × Status) :=
  (nextOf o).map fun s => (s.dec.off, s.dec.x, s.dec.y, s.dec.status)

/-- The latched error with `DEC.OFF`. -/
def errorOf (o : Host.Outcome State Fault Refusal) : Option (Status × ErrCause × BitVec 3 × Nat) :=
  (nextOf o).map fun s => (s.dec.status, s.dec.errCause, s.dec.errInfo, s.dec.off)

/-- A pixel of the decoder's raster. -/
def pixelAt (o : Host.Outcome State Fault Refusal) (x y : Nat) : Option Pixel :=
  (nextOf o).bind fun s => s.img.getPixel x y

/-- A one-row raster of these pixels. -/
def row (ps : List Pixel) : Raster :=
  (ps.zipIdx).foldl (fun r p => (r.setPixel p.2 0 p.1).getD r) (newBlank ps.length 1)

/-- An encode pass in row 0 of `r`, at column `x`, a run of these words (opaque) accumulated. -/
def encRun (r : Raster) (x : Nat) (ws : List Word) : State :=
  let s := startEncode r State.reset
  { s with enc := { s.enc with x := x, runKind := .opaqueRun, runLen := ws.length,
                               runBuf := ws.zipIdx.foldl (fun v w => v.setIfInBounds w.2 w.1) s.enc.runBuf } }

def red : Pixel := ⟨255, 0, 0, 255⟩
def clear : Pixel := ⟨0, 0, 0, 0⟩

/-! ### Decoding: words written out bit by bit from R61 (opcode in bits 7:5, run length minus 1 in bits 4:0) -/

theorem test_decode_pixelStream : decode 0b00000001#8 = .pixelStream 2 := by decide
theorem test_decode_transparent : decode 0b00100011#8 = .transparent 4 := by decide
theorem test_decode_repeat : decode 0b01011111#8 = .repeatRun 32 := by decide
theorem test_decode_newLine : decode 0b10011111#8 = .newLine 31 := by decide
theorem test_decode_invalid3 : decode 0b01100000#8 = .invalid3 0 := by decide
theorem test_decode_invalid5 : decode 0b10100001#8 = .invalid5 1 := by decide
theorem test_decode_invalid6 : decode 0b11011111#8 = .invalid6 31 := by decide
theorem test_decode_invalid7 : decode 0b11100010#8 = .invalid7 2 := by decide

/-- R141: the two pixels red and blue. -/
theorem test_decodeToken_pixelStream :
    decodeToken [0x01, 0x00, 0x7C, 0x1F, 0x00, 0x80] = .ok (⟨.pixelStream 2, [0x7C00, 0x001F]⟩, [0x80]) := rfl

theorem test_decodeToken_truncated : decodeToken [0x01, 0x00, 0x7C, 0x1F] = .error .truncated := rfl

theorem test_decodeToken_invalid : decodeToken [0x60, 0x00] = .error .invalidOpcode := rfl

/-- R140: 8 pixels of word `0x0443`. -/
theorem test_encodeToken_repeat : encodeToken ⟨.repeatRun 8, [0x0443]⟩ = [0x47, 0x43, 0x04] := by decide

theorem test_encode_newLine : encode (.newLine 0) = [0x80] := by decide

/-- The table's numbering: the first byte of the row is the control byte. -/
theorem test_decodeTableWord : decodeTableWord 8 0x47 = some (.repeatRun 8) := by decide

/-! ### `WellFormed`: each check refuses (R64, R72) -/

theorem test_wf_pixelStream_low : ¬ (Instr.pixelStream 0).wellFormed := by decide
theorem test_wf_pixelStream_high : ¬ (Instr.pixelStream 33).wellFormed := by decide
theorem test_wf_transparent_low : ¬ (Instr.transparent 0).wellFormed := by decide
theorem test_wf_transparent_high : ¬ (Instr.transparent 33).wellFormed := by decide
theorem test_wf_repeat_low : ¬ (Instr.repeatRun 0).wellFormed := by decide
theorem test_wf_repeat_high : ¬ (Instr.repeatRun 33).wellFormed := by decide
theorem test_wf_token_opcode : ¬ (Token.wellFormed ⟨.invalid3 0, []⟩) := by decide
theorem test_wf_token_run : ¬ (Token.wellFormed ⟨.transparent 33, []⟩) := by decide
theorem test_wf_token_payload : ¬ (Token.wellFormed ⟨.pixelStream 2, [0x7C00]⟩) := by decide

/-! ### Codecs -/

/-- V-U8. -/
theorem test_unpack : unpack555 0x1234 = ⟨32, 136, 160, 255⟩ := by decide

/-- V-U7: bit 15 is ignored. -/
theorem test_unpack_bit15 : unpack555 0x8000 = ⟨0, 0, 0, 255⟩ := by decide

/-- V-P6. -/
theorem test_pack : pack555 ⟨200, 100, 50, 128⟩ = 0x6586 := by decide

/-- V-H2: the reserved bytes are ignored. -/
theorem test_headerParse :
    headerParse (Buffer.ofBytes [0x04, 0x00, 0xEE, 0xEE, 0x02, 0x00, 0xFF, 0xFF]) = some (4, 2) := by decide

/-- V-H10. -/
theorem test_headerWrite : headerWrite 300 258 = [0x2C, 0x01, 0x00, 0x00, 0x02, 0x01, 0x00, 0x00] := by decide

/-! ### The tokens, one step each -/

/-- V-T3: the fourth word wraps and overwrites column 0. -/
theorem test_pixelStream_wraps :
    let o := step (dec0 3 1 [0x03, 0x1F, 0x00, 0xE0, 0x03, 0x00, 0x7C, 0xFF, 0x7F])
    trace o = some (17, 1, 0, .done) ∧ pixelAt o 0 0 = some ⟨248, 248, 248, 255⟩ ∧ pixelAt o 1 0 = some ⟨0, 248, 0, 255⟩ := by
  decide

/-- R192: a payload one byte short below the image raises truncation, not the row. -/
theorem test_pixelStream_truncated_first :
    errorOf (step (decAt 2 1 0 1 [0x00, 0x00])) = some (.faulted, .truncatedInput, 0, 8) := by decide

/-- V-T1. -/
theorem test_repeat :
    let o := step (dec0 2 1 [0x40, 0x1F, 0x00])
    trace o = some (11, 1, 0, .done) ∧ pixelAt o 0 0 = some ⟨0, 0, 248, 255⟩ ∧ pixelAt o 1 0 = some clear := by decide

/-- R183: below the image. -/
theorem test_repeat_below :
    errorOf (step (decAt 2 1 0 1 [0x40, 0x1F, 0x00])) = some (.faulted, .outOfBoundsPixel, 0, 8) := by decide

/-- R111: `23` at column 0 of a width-3 image. -/
theorem test_transparent : trace (step (dec0 3 1 [0x23])) = some (9, 1, 0, .done) := by decide

/-- R113: `9F` at `(1, 0)`. -/
theorem test_newLine : trace (step (decAt 2 1 1 0 [0x9F, 0x20])) = some (9, 0, 1, .running) := by decide

/-- V-B and R114. -/
theorem test_invalid3 : errorOf (step (dec0 1 1 [0x60])) = some (.faulted, .unknownOpcode, 3, 8) := by decide
theorem test_invalid5 : errorOf (step (dec0 1 1 [0xA0])) = some (.faulted, .unknownOpcode, 5, 8) := by decide
theorem test_invalid6 : errorOf (step (dec0 1 1 [0xDF])) = some (.faulted, .unknownOpcode, 6, 8) := by decide
theorem test_invalid7 : errorOf (step (dec0 1 1 [0xFF])) = some (.faulted, .unknownOpcode, 7, 8) := by decide

/-- The placed instruction is the one the very next step runs. -/
theorem test_withFetchWord : trace (step (State.reset.withFetchWord 8 0x80)) = some (9, 0, 1, .running) := by decide

/-- It is, in a running pass, at `DEC.OFF`. -/
theorem test_withFetchWord_running :
    errorOf (step ((dec0 1 1 [0x80, 0x80]).withFetchWord 8 0xA5)) = some (.faulted, .unknownOpcode, 5, 8) := by
  decide +kernel

/-! ### Starts and ends -/

/-- V-C. -/
theorem test_start_empty : trace (.next (dec0 100 100 [])) = some (8, 0, 0, .done) := by decide

/-- V-H5: 7 bytes. -/
theorem test_start_short :
    ((startDecode [0x02, 0, 0, 0, 0x01, 0, 0] State.reset).dec.status, (startDecode [0x02] State.reset).dec.errCause) =
      (.faulted, .truncatedInput) := by decide

/-- V-H7. -/
theorem test_start_zero_width :
    ((dec0 0 1 []).dec.status, (dec0 0 1 []).dec.errCause) = (.faulted, .invalidHeader) := by decide

/-- R202: the header bytes of a 2 by 1 raster. -/
theorem test_startEncode :
    (startEncode (row [red, clear]) State.reset).ob.bytes = [0x02, 0, 0, 0, 0x01, 0, 0, 0] := by decide

theorem test_startEncode_zero :
    ((startEncode (newBlank 0 1) State.reset).enc.status, (startEncode (newBlank 0 1) State.reset).enc.errCause) =
      (.faulted, .invalidArgument) := by decide

/-- R188: nothing to do right after reset. -/
theorem test_noStep : step State.reset = .fault .noStep := rfl

/-! ### The encoder, one step each -/

/-- V-A3, step 0: a run of one word, nothing emitted. -/
theorem test_encStep_first :
    (nextOf (encStep (startEncode (row [red, clear]) State.reset))).map
      (fun s => (s.enc.x, s.enc.runLen, runWords s.enc, s.ob.len)) = some (1, 1, [0x7C00], 8) := by decide

/-- V-A3, step 1: the class changes, then the row ends. -/
theorem test_encStep_last :
    (nextOf (encStep (encRun (row [red, clear]) 1 [0x7C00]))).map
      (fun s => (s.ob.bytes.drop 8, s.enc.x, s.enc.y, s.enc.status)) =
      some ([0x00, 0x00, 0x7C, 0x20, 0x80], 0, 1, .done) := by decide

/-- C3: the other value of `ENC_SINGLE_OPAQUE`. -/
theorem test_encStep_singleRepeat :
    (nextOf (encStep { encRun (row [red, clear]) 1 [0x7C00] with encSingleOpaque := .repeatRun })).map
      (fun s => s.ob.bytes.drop 8) = some [0x40, 0x00, 0x7C, 0x20, 0x80] := by decide

/-- R134, V-D: the 33rd pixel of a run flushes the 32 before it. -/
theorem test_encStep_full :
    (nextOf (encStep (encRun (row (List.replicate 40 ⟨10, 20, 30, 255⟩)) 32 (List.replicate 32 0x0443)))).map
      (fun s => (s.ob.bytes.drop 8, s.enc.runLen)) = some ([0x5F, 0x43, 0x04], 1) := by
  decide +kernel

/-! ### Witnesses: for every statement with hypotheses, states and operands that meet them all, at the boundaries of each
clause -/

theorem next_of_isSome {o : Host.Outcome State Fault Refusal} (h : (nextOf o).isSome = true) : ∃ t, o = .next t := by
  cases o with
  | next t => exact ⟨t, rfl⟩
  | fault r => simp [nextOf] at h
  | refused r => simp [nextOf] at h

/-- An encode pass of a red and a transparent pixel, just started over the state `s`. -/
def enc0 (s : State) : State := encStart { s with src := row [red, clear] }

/-- The same pass one pixel on: the last column, a run of one word. -/
def enc1 : State := takePixel red (enc0 State.reset)

/-- Both units running. -/
def dual : State := enc0 (dec0 2 1 [0x40, 0x1F, 0x00])

theorem row_dims : encDimOk (row [red, clear]).width ∧ encDimOk (row [red, clear]).height := by
  have h1 : (row [red, clear]).width = 2 := by decide
  have h2 : (row [red, clear]).height = 1 := by decide
  rw [h1, h2]
  simp [encDimOk, Config.maxDim]

theorem enc0_pass (s : State) : EncPass (enc0 s) := EncPass.start row_dims.1 row_dims.2

theorem enc1_pass : EncPass enc1 := ((enc0_pass State.reset).takePixel (p := red) rfl).1

theorem dec0_eq :
    dec0 2 1 [0x40, 0x1F, 0x00] =
      decStart 2 1 { State.reset with ib := Buffer.ofBytes (headerWrite 2 1 ++ [0x40, 0x1F, 0x00]) } := by
  decide

theorem dec0_pass : DecPass (dec0 2 1 [0x40, 0x1F, 0x00]) := by
  rw [dec0_eq]
  exact DecPass.start (by decide) (by decide) (by simp [headerWrite])

theorem dual_inv : Inv dual :=
  ⟨⟨by decide, by decide, by decide, by decide, by rw [show dual.host = [] by decide]; simp⟩,
    DecInv.congr (dec0_pass.inv) rfl rfl rfl, enc0_pass _, (enc0_pass _).bounds⟩

/-- `OpcodeMapComplete`: the ends of each range. -/
theorem witness_opcodeMap :
    (0x1F#8).toNat < 0x20 ∧ (0x20 ≤ (0x20#8).toNat ∧ (0x3F#8).toNat < 0x40) ∧ (0x40 ≤ (0x40#8).toNat ∧ (0x5F#8).toNat < 0x60) ∧
    (0x60 ≤ (0x60#8).toNat ∧ (0x7F#8).toNat < 0x80) ∧ (0x80 ≤ (0x80#8).toNat ∧ (0x9F#8).toNat < 0xA0) ∧
    (0xA0 ≤ (0xA0#8).toNat ∧ (0xBF#8).toNat < 0xC0) ∧ (0xC0 ≤ (0xC0#8).toNat ∧ (0xDF#8).toNat < 0xE0) ∧
    0xE0 ≤ (0xE0#8).toNat := by decide

/-- `TokenDecodesAsEncoded`: the shortest and the longest run. -/
theorem witness_tokenDecodesAsEncoded :
    Token.wellFormed ⟨.pixelStream 1, [0xFFFF]⟩ ∧ Token.wellFormed ⟨.pixelStream 32, List.replicate 32 0x8000⟩ ∧
    Token.wellFormed ⟨.transparent 32, []⟩ ∧ Token.wellFormed ⟨.repeatRun 1, [0]⟩ ∧ Token.wellFormed ⟨.newLine 31, []⟩ := by
  decide

/-- `DecodedTokenReencodes`. -/
theorem witness_decodedTokenReencodes : decodeToken [0x47, 0x43, 0x04, 0x80] = .ok (⟨.repeatRun 8, [0x0443]⟩, [0x80]) := rfl

/-- `TokenStreamUnambiguous`. -/
theorem witness_tokenStreamUnambiguous :
    (∀ t ∈ ([⟨.transparent 1, []⟩, ⟨.newLine 0, []⟩] : List Token), t.wellFormed) ∧
      encodeTokens [⟨.transparent 1, []⟩, ⟨.newLine 0, []⟩] = [0x20, 0x80] := by
  refine ⟨fun t ht => ?_, by decide⟩
  rcases List.mem_pair.1 ht with rfl | rfl <;> decide

/-- `StepRunsDecodedInstruction`: with the encoder idle, and with both running. -/
theorem witness_stepRunsDecodedInstruction :
    ((dec0 2 1 [0x40, 0x1F, 0x00]).host = [] ∧ (dec0 2 1 [0x40, 0x1F, 0x00]).dec.status = .running ∧
      (dec0 2 1 [0x40, 0x1F, 0x00]).ib.read8 8 = some 0x40 ∧ (dec0 2 1 [0x40, 0x1F, 0x00]).enc.status ≠ .running) ∧
    (dual.host = [] ∧ dual.dec.status = .running ∧ dual.ib.read8 dual.dec.off = some 0x40 ∧ dual.enc.status = .running) := by
  decide

/-- `UnitStepsCommute`. -/
theorem witness_unitStepsCommute : (∃ t, decStep dual = .next t) ∧ ∃ u, encStep dual = .next u :=
  ⟨next_of_isSome (by decide), next_of_isSome (by decide)⟩

/-- `PixelStreamMeaning`: one byte short; exactly complete on the first row below; exactly complete on the last row. -/
theorem witness_pixelStreamMeaning :
    runLengthOk 1 ∧ runLengthOk 32 ∧
    (let s := decAt 2 1 1 0 [0x00, 0x00]; s.ib.len - (s.dec.off + 1) < 2 * 1) ∧
    (let s := decAt 2 1 1 1 [0x00, 0x00, 0x7C]; 2 * 1 ≤ s.ib.len - (s.dec.off + 1) ∧ s.dec.h.toNat ≤ s.dec.y) ∧
    (let s := decAt 2 1 1 0 [0x00, 0x00, 0x7C]
     2 * 1 ≤ s.ib.len - (s.dec.off + 1) ∧ s.dec.y < s.dec.h.toNat ∧ s.dec.x < s.dec.w.toNat ∧
       s.img.width = s.dec.w.toNat ∧ s.img.height = s.dec.h.toNat) := by decide

/-- `PixelStreamMeaning`: a run of 3 on width 2 from column 1: columns 1, 0, 1, so word 0 is overwritten and words 1, 2 stand. -/
theorem witness_pixelStreamMeaning_last :
    (∀ j, 1 < j → j < 3 → (1 + j) % 2 ≠ (1 + 1) % 2) ∧ (∀ j, 2 < j → j < 3 → (1 + j) % 2 ≠ (1 + 2) % 2) ∧
    (∀ i < 1, (1 + i) % 2 ≠ 0) := by
  refine ⟨fun j h1 h2 => ?_, fun j h1 h2 => ?_, fun i hi => ?_⟩ <;> omega

/-- `RepeatMeaning`: as for `PixelStreamMeaning`. -/
theorem witness_repeatMeaning :
    runLengthOk 1 ∧ runLengthOk 32 ∧
    (let s := decAt 2 1 1 0 [0x5F, 0x00]; s.ib.len - (s.dec.off + 1) < 2) ∧
    (let s := decAt 2 1 1 1 [0x5F, 0x00, 0x7C]; 2 ≤ s.ib.len - (s.dec.off + 1) ∧ s.dec.h.toNat ≤ s.dec.y) ∧
    (let s := decAt 2 1 1 0 [0x40, 0x00, 0x7C]
     2 ≤ s.ib.len - (s.dec.off + 1) ∧ s.dec.y < s.dec.h.toNat ∧ s.dec.x < s.dec.w.toNat ∧
       s.img.width = s.dec.w.toNat ∧ s.img.height = s.dec.h.toNat) ∧
    (∀ i < 1, (1 + i) % 2 ≠ 0) := by decide

/-- `TransparentMeaning`: both ends of the run length. -/
theorem witness_transparentMeaning : runLengthOk 1 ∧ runLengthOk 32 := by decide

/-- `NewLineMeaning`, second clause: every other token on which `exec` answers a next state. -/
theorem witness_newLineMeaning :
    (∃ t, exec (.transparent 1) (dec0 2 1 [0x20]) = .next t) ∧ isNewLine (.transparent 1) = false := ⟨⟨_, rfl⟩, rfl⟩

/-- `FaultingTokenChangesNothingElse`, and the faulting clause of `OffsetAdvance`. -/
theorem witness_faultingToken :
    ∃ t, exec (.invalid3 0) (dec0 1 1 [0x60]) = .next t ∧ t.dec.status = .faulted := ⟨_, rfl, rfl⟩

/-- `TokenFrame`: a token that draws and does not fault, one that draws nothing, and a row that is not the cursor's; with
the offset below the length, the first clause of `OffsetAdvance`. -/
theorem witness_tokenFrame :
    (∃ t, exec (.repeatRun 1) (dec0 2 2 [0x40, 0x1F, 0x00]) = .next t ∧ t.dec.status ≠ .faulted) ∧
    draws (.newLine 0) = false ∧ (1 : Nat) ≠ (dec0 2 2 [0x40, 0x1F, 0x00]).dec.y ∧
    (dec0 2 2 [0x40, 0x1F, 0x00]).dec.off < (dec0 2 2 [0x40, 0x1F, 0x00]).ib.len := by
  refine ⟨?_, by decide, by decide, by decide⟩
  obtain ⟨t, ht⟩ := next_of_isSome (o := exec (.repeatRun 1) (dec0 2 2 [0x40, 0x1F, 0x00])) (by decide)
  refine ⟨t, ht, ?_⟩
  have h : ((nextOf (exec (.repeatRun 1) (dec0 2 2 [0x40, 0x1F, 0x00]))).map fun t => t.dec.status) = some .done := by decide
  rw [ht] at h
  simp only [nextOf, Option.map_some, Option.some.injEq] at h
  rw [h]
  decide

/-- `IdleUnitsStay`: neither unit runs; the decoder alone; the encoder alone. -/
theorem witness_idleUnitsStay :
    (State.reset.host = [] ∧ State.reset.dec.status ≠ .running ∧ State.reset.enc.status ≠ .running) ∧
    ((∃ t, step (dec0 2 1 [0x20]) = .next t) ∧ (dec0 2 1 [0x20]).host = [] ∧ (dec0 2 1 [0x20]).enc.status ≠ .running) ∧
    ((∃ t, step (startEncode (row [red]) State.reset) = .next t) ∧ (startEncode (row [red]) State.reset).host = [] ∧
      (startEncode (row [red]) State.reset).dec.status ≠ .running) :=
  ⟨by decide, ⟨next_of_isSome (by decide), by decide, by decide⟩, ⟨next_of_isSome (by decide), by decide, by decide⟩⟩

/-- `StatusTransitions`: a reset, a start of each unit, a step that ends a pass. -/
theorem witness_statusTransitions :
    (∃ t, step { dual with host := [.reset] } = .next t) ∧
    (∃ t, step { State.reset with host := [.startDecode (headerWrite 1 1)] } = .next t) ∧
    (∃ t, step { State.reset with host := [.startEncode (row [red])] } = .next t) ∧
    ∃ t, step (dec0 2 1 [0x20]) = .next t :=
  ⟨⟨_, rfl⟩, next_of_isSome (by decide), next_of_isSome (by decide), next_of_isSome (by decide)⟩

/-- `ResetIdlesBothUnits`. -/
theorem witness_resetIdlesBothUnits : ({ dual with host := [.reset] } : State).host = .reset :: [] := rfl

/-- `DecodeStart`: 7 bytes; 8 bytes and a zero width, or a zero height; 8 bytes and no zero; 9 bytes. -/
theorem witness_decodeStart :
    ([2, 0, 0, 0, 1, 0, 0] : List Byte).length < 8 ∧
    (le16 0 0 = 0 ∧ le16 1 0 ≠ 0) ∧
    (([2, 0, 0, 0, 1, 0, 0, 0] : List Byte) = [2, 0, 0, 0, 1, 0, 0, 0] ++ [] ∧ le16 2 0 ≠ 0 ∧ le16 1 0 ≠ 0) ∧
    ([2, 0, 0, 0, 1, 0, 0, 0, 0x80] : List Byte) = [2, 0, 0, 0, 1, 0, 0, 0] ++ [0x80] := by decide

/-- `EncodeStart`, `EncodePassEnds`: dimensions 0, 1, 65535, 65536. -/
theorem witness_encodeStart :
    (newBlank 0 1).width = 0 ∧ (newBlank 1 0).height = 0 ∧ 65535 < (newBlank 65536 1).width ∧
    65535 < (newBlank 1 65536).height ∧
    (1 ≤ (newBlank 1 65535).width ∧ (newBlank 1 65535).width ≤ 65535 ∧ 1 ≤ (newBlank 1 65535).height ∧
      (newBlank 1 65535).height ≤ 65535) ∧
    0 < (newBlank 1 1).width * (newBlank 1 1).height := by
  refine ⟨rfl, rfl, ?_, ?_, ?_, ?_⟩ <;> simp [newBlank]

/-- `PendingStartIsTheStep`: a pending start of each unit, the units idle, and both running. -/
theorem witness_pendingStart :
    (State.reset.dec.status = .idle ∧ State.reset.enc.status = .idle) ∧ (dual.dec.status ≠ .idle ∧ dual.enc.status ≠ .idle) ∧
    ({ dual with host := [.startDecode []] } : State).host = .startDecode [] :: [] ∧
    ({ dual with host := [.startEncode (newBlank 1 1)] } : State).host = .startEncode (newBlank 1 1) :: [] := by decide

/-- A run of 32 equal words. -/
def full : State :=
  { enc1 with enc := { enc1.enc with runKind := .opaqueRun, runLen := 32, runBuf := Vector.replicate 32 0x0443 } }

/-- A run of two words that differ. -/
def pair : State := { enc1 with enc := { enc1.enc with runLen := 2 } }

/-- `FlushWritesTheRun`: a run of 1 word, of 2 that differ, of 32 equal ones, and a transparent run. -/
theorem witness_flushWritesTheRun :
    (1 ≤ enc1.enc.runLen ∧ enc1.enc.runKind ≠ .transparentRun ∧ (runWords enc1.enc).head? = some 0x7C00 ∧
      ¬ ((∀ v ∈ runWords enc1.enc, v = 0x7C00) ∧ (2 ≤ enc1.enc.runLen ∨ enc1.encSingleOpaque = .repeatRun))) ∧
    (pair.enc.runKind ≠ .transparentRun ∧ (runWords pair.enc).head? = some 0x7C00 ∧ ¬ ∀ v ∈ runWords pair.enc, v = 0x7C00) ∧
    (full.enc.runLen ≤ 32 ∧ (runWords full.enc).head? = some 0x0443 ∧ (∀ v ∈ runWords full.enc, v = 0x0443) ∧
      2 ≤ full.enc.runLen) ∧
    (let s := addPixel .transparentRun clear (enc0 State.reset)
     1 ≤ s.enc.runLen ∧ s.enc.runLen ≤ 32 ∧ s.enc.runKind = .transparentRun) := by
  have h1 : enc1.enc.runLen = 1 ∧ enc1.enc.runKind = .opaqueRun ∧ enc1.encSingleOpaque = .pixelStream := by decide
  have h2 : runWords enc1.enc = [0x7C00] := by decide
  have h3 : pair.enc.runKind = .opaqueRun ∧ runWords pair.enc = [0x7C00, 0] := by decide
  refine ⟨by rw [h1.1, h1.2.1, h1.2.2, h2]; simp, by rw [h3.1, h3.2]; simp, ?_, by decide⟩
  have h : runWords full.enc = List.replicate 32 0x0443 := by simp [runWords, full]
  refine ⟨Nat.le_refl 32, ?_, ?_, by decide⟩ <;> rw [h]
  · rfl
  · intro v hv
    exact (List.mem_replicate.1 hv).2

/-- `EncoderStepTakesOnePixel`, `EncoderEmitsAtMost69Bytes`: not the last column, and the last column. -/
theorem witness_encoderStep :
    (EncPass (enc0 State.reset) ∧ (enc0 State.reset).enc.status = .running ∧
      (enc0 State.reset).enc.x + 1 < (enc0 State.reset).enc.w ∧ ∃ t, encStep (enc0 State.reset) = .next t) ∧
    (EncPass enc1 ∧ enc1.enc.status = .running ∧ enc1.enc.x + 1 = enc1.enc.w ∧ ∃ t, encStep enc1 = .next t) :=
  ⟨⟨enc0_pass _, by decide, by decide, next_of_isSome (by decide)⟩,
    ⟨enc1_pass, by decide, by decide, next_of_isSome (by decide)⟩⟩

/-- `FlushedRunIsWellFormed`. -/
theorem witness_flushedRun :
    EncPass enc1 ∧ 0 < enc1.enc.runLen :=
  ⟨enc1_pass, by decide⟩

/-- `DecodePassEnds`, last clause: a pass that ends in an image, and one that ends in an error. -/
theorem witness_decodePassEnds :
    (∃ t, decodePass (headerWrite 1 1) State.reset = .next t) ∧ ∃ t, decodePass [] State.reset = .next t :=
  ⟨next_of_isSome (by decide), next_of_isSome (by decide)⟩

/-- `EmptyStreamIsBlank`: the smallest and the largest dimension. -/
theorem witness_emptyStreamIsBlank : (1 : Word) ≠ 0 ∧ (65535 : Word) ≠ 0 := by simp

/-- `WellFormedBufferDecodes`: V-A2's stream, the row full, and one `NewLine` more than the height. -/
theorem witness_wellFormedBuffer :
    wellFormedBuffer [2, 0, 0, 0, 1, 0, 0, 0, 0x00, 0x00, 0x7C, 0x20, 0x80, 0x80] :=
  ⟨2, 1, 0, 0, [⟨.pixelStream 1, [0x7C00]⟩, ⟨.transparent 1, []⟩, ⟨.newLine 0, []⟩, ⟨.newLine 0, []⟩], by decide, by decide,
    by decide, by
      simp only [streamOk, isNewLine, if_true, Bool.false_eq_true, if_false, and_true]
      decide⟩

/-- `EncoderOutputShape`, `RoundTrip`: the smallest and the largest dimensions; a pass that ends. -/
theorem witness_encoderOutputShape :
    encDimOk (row [red]).width ∧ encDimOk (row [red]).height ∧ encDimOk 65535 ∧
      ∃ t, encodePass (row [red]) State.reset = .next t :=
  ⟨by decide, by decide, by simp [encDimOk, Config.maxDim], next_of_isSome (by decide)⟩

/-- `RoundTrip`: a pixel of either kind. -/
theorem witness_roundTrip : (row [red, clear]).getPixel 0 0 = some red ∧ (row [red, clear]).getPixel 1 0 = some clear := by
  decide

/-- `EncoderReadsOnlyClassAndWord`: two different rasters that agree in class and colour word (R95). -/
theorem witness_encoderReads :
    (row [⟨8, 16, 24, 255⟩]).width = (row [⟨15, 23, 31, 200⟩]).width ∧
    (row [⟨8, 16, 24, 255⟩]).height = (row [⟨15, 23, 31, 200⟩]).height ∧
    (∀ x y p q, (row [⟨8, 16, 24, 255⟩]).getPixel x y = some p → (row [⟨15, 23, 31, 200⟩]).getPixel x y = some q →
      (p.a = 0 ↔ q.a = 0) ∧ (p.a ≠ 0 → pack555 p = pack555 q)) ∧
    ∃ t, encodePass (row [⟨8, 16, 24, 255⟩]) State.reset = .next t := by
  refine ⟨by decide, by decide, fun x y p q hp hq => ?_, next_of_isSome (by decide)⟩
  have hx := Raster.getPixel_some_lt hp
  have h1 : (row [⟨8, 16, 24, 255⟩]).width = 1 := by decide
  have h2 : (row [⟨8, 16, 24, 255⟩]).height = 1 := by decide
  obtain rfl : x = 0 := by omega
  obtain rfl : y = 0 := by omega
  have hp' : (row [⟨8, 16, 24, 255⟩]).getPixel 0 0 = some ⟨8, 16, 24, 255⟩ := by decide
  have hq' : (row [⟨15, 23, 31, 200⟩]).getPixel 0 0 = some ⟨15, 23, 31, 200⟩ := by decide
  rw [hp'] at hp
  rw [hq'] at hq
  injection hp with hp
  injection hq with hq
  subst hp hq
  decide

/-- `ReencodeSameBytes`, `DecodedImageIsStable`: the passes of a 1 by 1 image, one after the other. -/
theorem witness_reencode :
    ∃ t u v w, encodePass (row [red]) State.reset = .next t ∧ decodePass t.ob.bytes State.reset = .next u ∧
      u.dec.status = .done ∧ encodePass u.img State.reset = .next v ∧ decodePass v.ob.bytes State.reset = .next w :=
  ⟨_, _, _, _, rfl, rfl, rfl, rfl, rfl⟩

/-- `StepKeepsInv`, `StepKeepsDecodedPixels`: a legal state with a step. -/
theorem witness_stepKeepsInv :
    Inv { dual with host := [.reset] } ∧ ∃ t, step { dual with host := [.reset] } = .next t :=
  ⟨⟨⟨dual_inv.mem.ib, dual_inv.mem.ob, dual_inv.mem.img, dual_inv.mem.src, fun op h => by simp at h; subst h; trivial⟩,
      dual_inv.dec.congr rfl rfl rfl, dual_inv.enc.congr rfl rfl rfl, dual_inv.bounds.congr rfl⟩, ⟨_, rfl⟩⟩

/-- `StepKeepsInv` where the encoder's start check rejects the raster: the bounds of R163 are still there. -/
theorem witness_stepKeepsInv_rejected :
    Inv { dual with enc := State.reset.enc, host := [.startEncode (newBlank 0 0)] } ∧
    ∃ t, step { dual with enc := State.reset.enc, host := [.startEncode (newBlank 0 0)] } = .next t ∧
      t.enc.status = .faulted ∧ EncBounds t :=
  ⟨⟨⟨dual_inv.mem.ib, dual_inv.mem.ob, dual_inv.mem.img, dual_inv.mem.src, fun op h => by simp at h; subst h; rfl⟩,
      dual_inv.dec.congr rfl rfl rfl, trivial, ⟨by decide, by decide, by decide, by decide⟩⟩,
    ⟨_, rfl, rfl, (encUndefined_bounds _).raised⟩⟩

theorem witness_stepKeepsDecodedPixels :
    ImgInv (dec0 2 1 [0x20]) ∧ ∃ t, step (dec0 2 1 [0x20]) = .next t := by
  refine ⟨fun x y p hp => ?_, next_of_isSome (by decide)⟩
  have h : (dec0 2 1 [0x20]).img = newBlank 2 1 := by decide
  rw [h] at hp
  obtain ⟨hx, hy⟩ := Raster.getPixel_some_lt hp
  rw [newBlank_getPixel (w := 2) (h := 1) hx hy] at hp
  injection hp with hp
  exact .inl hp.symm

/-- `LegalStepsStayInBounds`: both units running. -/
theorem witness_legalSteps : Inv dual ∧ dual.host = [] := ⟨dual_inv, by decide⟩

end Sys2Proof.Tests
end

section
/-! SUPPORT. The rules of the two units' steps and of the host's operations that the statements about the state rest on: what
each leaves unchanged, and what it does to `STATUS`. -/

namespace Sys2Proof.Machine

/-! ### A token -/

/-- A status of a pass that has not faulted is `Done` or `Running` (R16). -/
theorem decStatusAt_cases (off len : Nat) : decStatusAt off len = .done ∨ decStatusAt off len = .running := by
  unfold decStatusAt
  split
  · exact .inl rfl
  · exact .inr rfl

theorem decStatusAt_ne_faulted (off len : Nat) : decStatusAt off len ≠ .faulted := by
  rcases decStatusAt_cases off len with h | h <;> simp [h]

theorem isValidOpcode_of_draws {i : Instr} (h : draws i = true) : isValidOpcode i = true := by
  cases i with
  | pixelStream n => rfl
  | repeatRun n => rfl
  | transparent n => rfl
  | newLine f => rfl
  | invalid3 f => cases h
  | invalid5 f => cases h
  | invalid6 f => cases h
  | invalid7 f => cases h

/-- A token was executed without an error: the cursor moved, the offset went past it, and the raster changed at most where a
drawing token writes. -/
structure TokenPassed (i : Instr) (s t : State) : Prop where
  frame : t =
    { s with
      dec := { s.dec with
        x := t.dec.x
        y := t.dec.y
        off := s.dec.off + tokenLength i
        status := decStatusAt (s.dec.off + tokenLength i) s.ib.len }
      img := t.img }
  valid : isValidOpcode i = true
  fits : s.dec.off < s.ib.len → s.dec.off + tokenLength i ≤ s.ib.len
  img_eq : draws i = false → t.img = s.img
  width : t.img.width = s.img.width
  height : t.img.height = s.img.height
  rows : ∀ c r, r ≠ s.dec.y → t.img.getPixel c r = s.img.getPixel c r

/-- A drawing token that ends has passed (R110, R112). -/
theorem TokenPassed.drawn {i : Instr} {ps : List Pixel} {s u : State} (hdraws : draws i = true)
    (hfits : s.dec.off + tokenLength i ≤ max s.ib.len (s.dec.off + 1)) (h : Drawn ps s u) :
    TokenPassed i s (retire (tokenLength i) u) where
  frame := by rw [h.frame]; rfl
  valid := isValidOpcode_of_draws hdraws
  fits := by omega
  img_eq hno := by simp [hdraws] at hno
  width := h.width
  height := h.height
  rows c r hr := by simpa [hr] using h.pixels c r

/-- `Transparent` always passes (R111). -/
theorem TokenPassed.transparent (n : Nat) (s : State) : TokenPassed (.transparent n) s (retire 1 (advXTimes n s)) := by
  have hmove := advXTimes_eq n s
  constructor
  case frame => rw [hmove]; rfl
  case valid => rfl
  case fits => exact id
  case img_eq => intro _; rw [hmove]; rfl
  case width => rw [hmove]; rfl
  case height => rw [hmove]; rfl
  case rows => intro c r _; rw [hmove]; rfl

/-- `NewLine` always passes (R113). -/
theorem TokenPassed.newLine (f : BitVec 5) (s : State) : TokenPassed (.newLine f) s (retire 1 (nextRow s)) where
  frame := rfl
  valid := rfl
  fits := id
  img_eq _ := rfl
  width := rfl
  height := rfl
  rows _ _ _ := rfl

/-- A token that answers a next state has passed, or has raised in the state it started in (R102, R119). -/
theorem exec_passed_or_raised {i : Instr} {s t : State} (h : exec i s = .next t) :
    TokenPassed i s t ∨ ∃ e, t = raiseDec e s := by
  rcases exec_cases h with ⟨ps, u, hdraw, _, hdraws, hfits, rfl⟩ | ⟨e, rfl, _⟩ | ⟨n, rfl, rfl⟩ | ⟨f, rfl, rfl⟩
  · exact .inl (.drawn hdraws hfits (drawAll_ok hdraw))
  · exact .inr ⟨e, rfl⟩
  · exact .inl (.transparent n s)
  · exact .inl (.newLine f s)

theorem TokenPassed.status_eq {i : Instr} {s t : State} (h : TokenPassed i s t) :
    t.dec.status = decStatusAt (s.dec.off + tokenLength i) s.ib.len := by
  rw [h.frame]

theorem TokenPassed.not_faulted {i : Instr} {s t : State} (h : TokenPassed i s t) : t.dec.status ≠ .faulted := by
  rw [h.status_eq]
  exact decStatusAt_ne_faulted _ _

theorem TokenPassed.off_eq {i : Instr} {s t : State} (h : TokenPassed i s t) :
    t.dec.off = s.dec.off + tokenLength i := by
  rw [h.frame]

theorem TokenPassed.kept {i : Instr} {s t : State} (h : TokenPassed i s t) :
    t.dec.w = s.dec.w ∧ t.dec.h = s.dec.h ∧ t.dec.errCause = s.dec.errCause ∧ t.dec.errInfo = s.dec.errInfo := by
  rw [h.frame]
  exact ⟨rfl, rfl, rfl, rfl⟩

/-- A token writes the decoder's registers and its raster alone (R40, R52, R166). -/
theorem exec_frame {i : Instr} {s t : State} (h : exec i s = .next t) : t = { s with dec := t.dec, img := t.img } := by
  rcases exec_passed_or_raised h with hp | ⟨e, rfl⟩
  · rw [hp.frame]
  · rfl

theorem exec_status {i : Instr} {s t : State} (h : exec i s = .next t) :
    t.dec.status = .running ∨ t.dec.status = .done ∨ t.dec.status = .faulted := by
  rcases exec_passed_or_raised h with hp | ⟨e, rfl⟩
  · rw [hp.status_eq]
    rcases decStatusAt_cases (s.dec.off + tokenLength i) s.ib.len with h | h <;> simp [h]
  · exact .inr (.inr rfl)

/-! ### A pixel -/

theorem encStatusAt_cases (y h : Nat) : encStatusAt y h = .running ∨ encStatusAt y h = .done := by
  unfold encStatusAt
  split
  · exact .inr rfl
  · exact .inl rfl

theorem takePixel_status (p : Pixel) (s : State) :
    (takePixel p s).enc.status = .running ∨ (takePixel p s).enc.status = .done :=
  encStatusAt_cases _ _

/-- An encoder step appends to `OB` (R42). -/
theorem takePixel_ob {p : Pixel} {s : State} (h : s.enc.runLen ≤ Config.maxRun) :
    ∃ bs, (takePixel p s).ob = s.ob.pushAll bs := by
  obtain ⟨u, hjoined, ⟨_, hnext⟩ | ⟨_, hnext⟩⟩ := takePixel_cases p s h
  · exact ⟨_, by rw [hnext]; exact hjoined.ob⟩
  · rw [hnext]
    simp only [hjoined.ob, ← Buffer.pushAll_append]
    exact ⟨_, rfl⟩

/-- `s` with another decoder: its registers and its raster replaced. -/
def withDecoder (d : DecUnit) (img : Raster) (s : State) : State := { s with dec := d, img := img }

theorem flushBefore_withDecoder (k : RunKind) (d : DecUnit) (img : Raster) (s : State) :
    flushBefore k (withDecoder d img s) = withDecoder d img (flushBefore k s) := by
  rcases flushBefore_cases k s with ⟨hc, h⟩ | ⟨hc, h⟩
  all_goals rcases flushBefore_cases k (withDecoder d img s) with ⟨hc', h'⟩ | ⟨hc', h'⟩
  · rw [h, h']; rfl
  · exact absurd hc hc'
  · exact absurd hc' hc
  · rw [h, h']

theorem advanceScan_withDecoder (d : DecUnit) (img : Raster) (s : State) :
    advanceScan (withDecoder d img s) = withDecoder d img (advanceScan s) := by
  rcases advanceScan_cases s with ⟨hx, h⟩ | ⟨hx, h⟩
  · rw [h]; exact if_pos hx
  · rw [h]; exact if_neg hx

/-- An encoder step neither reads nor writes the decoder (R10). -/
theorem takePixel_withDecoder (p : Pixel) (d : DecUnit) (img : Raster) (s : State) :
    takePixel p (withDecoder d img s) = withDecoder d img (takePixel p s) :=
  calc takePixel p (withDecoder d img s)
    _ = settleEnc (advanceScan (addPixel (classOf p) p (withDecoder d img (flushBefore (classOf p) s)))) := by
      rw [takePixel, flushBefore_withDecoder]
    _ = settleEnc (advanceScan (withDecoder d img (addPixel (classOf p) p (flushBefore (classOf p) s)))) := rfl
    _ = settleEnc (withDecoder d img (advanceScan (addPixel (classOf p) p (flushBefore (classOf p) s)))) := by
      rw [advanceScan_withDecoder]
    _ = withDecoder d img (takePixel p s) := rfl

/-! ### The starts -/

/-- The start of a decode pass writes the decoder's registers, `IB` and the decoder's raster alone (R201). -/
theorem startDecode_frame (bytes : List Byte) (s : State) :
    startDecode bytes s =
      { s with dec := (startDecode bytes s).dec, ib := Buffer.ofBytes bytes, img := (startDecode bytes s).img } := by
  unfold startDecode
  rcases openDecode_cases { s with ib := Buffer.ofBytes bytes } with ⟨_, h⟩ | ⟨w, h, _, _, h⟩ | ⟨w, h, _, _, _, _, h⟩ <;>
    rw [h] <;> rfl

/-- The start of an encode pass writes the encoder's registers, `SRC` and `OB` alone (R202). -/
theorem startEncode_frame (r : Raster) (s : State) :
    startEncode r s = { s with enc := (startEncode r s).enc, src := r, ob := (startEncode r s).ob } := by
  rcases startEncode_cases r s with ⟨_, h⟩ | ⟨_, h⟩ <;> rw [h] <;> rfl

theorem startEncode_status (r : Raster) (s : State) :
    (startEncode r s).enc.status = .running ∨ (startEncode r s).enc.status = .faulted := by
  rcases startEncode_cases r s with ⟨_, h⟩ | ⟨_, h⟩
  · exact .inl (by rw [h]; rfl)
  · exact .inr (by rw [h]; rfl)

end Sys2Proof.Machine
end

section
/-! SUPPORT. The machine's invariant, kept by each of the three kinds of step. -/

namespace Sys2Proof.Machine

/-! ### What one unit leaves to show -/

/-- What changes the decoder and its memories alone keeps the invariant where it keeps the decoder's part. -/
theorem Inv.of_decoder {s t : State} (h : Inv s) (hframe : t = { s with dec := t.dec, ib := t.ib, img := t.img })
    (hib : t.ib.wf = true) (himg : t.img.wf = true) (hdec : DecInv t) : Inv t := by
  have henc : t.enc = s.enc := by rw [hframe]
  have hsrc : t.src = s.src := by rw [hframe]
  have hob : t.ob = s.ob := by rw [hframe]
  have hhost : t.host = s.host := by rw [hframe]
  have hmem : MemInv t :=
    { ib := hib, ob := hob ▸ h.mem.ob, img := himg, src := hsrc ▸ h.mem.src, host := hhost ▸ h.mem.host }
  exact ⟨hmem, hdec, h.enc.congr henc hsrc hob, h.bounds.congr henc⟩

/-- What changes the encoder and its memories alone keeps the invariant where it keeps the encoder's part. -/
theorem Inv.of_encoder {s t : State} (h : Inv s) (hframe : t = { s with enc := t.enc, src := t.src, ob := t.ob })
    (hsrc : t.src.wf = true) (hob : t.ob.wf = true) (henc : EncInv t) (hbounds : EncBounds t) : Inv t := by
  have hdec : t.dec = s.dec := by rw [hframe]
  have hib : t.ib = s.ib := by rw [hframe]
  have himg : t.img = s.img := by rw [hframe]
  have hhost : t.host = s.host := by rw [hframe]
  have hmem : MemInv t :=
    { ib := hib ▸ h.mem.ib, ob := hob, img := himg ▸ h.mem.img, src := hsrc, host := hhost ▸ h.mem.host }
  exact ⟨hmem, h.dec.congr hdec hib himg, henc, hbounds⟩

/-! ### The host's operations -/

/-- The next host operation is taken off the list. -/
theorem Inv.popHost {s : State} {op : HostOp} {rest : List HostOp} (h : Inv s) (hs : s.host = op :: rest) :
    op.wf ∧ Inv { s with host := rest, epoch := s.epoch + 1 } := by
  have hwf : ∀ o ∈ op :: rest, o.wf := hs ▸ h.mem.host
  have hmem : MemInv { s with host := rest, epoch := s.epoch + 1 } :=
    { ib := h.mem.ib, ob := h.mem.ob, img := h.mem.img, src := h.mem.src
      host := fun o ho => hwf o (List.mem_cons_of_mem _ ho) }
  exact ⟨hwf op List.mem_cons_self, hmem, h.dec.congr rfl rfl rfl, h.enc.congr rfl rfl rfl, h.bounds.congr rfl⟩

theorem hostReset_keeps_inv {s : State} (h : Inv s) : Inv (hostReset s) where
  mem := { ib := rfl, ob := rfl, img := rfl, src := rfl, host := h.mem.host }
  dec := trivial
  enc := trivial
  bounds :=
    { x_le := Nat.zero_le _, y_le := Nat.zero_le _, run_max := Nat.zero_le _
      kind_none := ⟨fun _ => rfl, fun _ => rfl⟩ }

/-- The start of a decode pass gives a legal pass or a latched error, and a blank raster, from any state (R201). -/
theorem startDecode_decInv (bytes : List Byte) (s : State) :
    DecInv (startDecode bytes s) ∧ (startDecode bytes s).img.wf = true := by
  unfold startDecode
  rcases openDecode_cases { s with ib := Buffer.ofBytes bytes } with
    ⟨_, h⟩ | ⟨w, h, _, _, h⟩ | ⟨w, h, _, hw, hh, hlen, h⟩ <;> rw [h]
  · exact ⟨.inl ⟨rfl, rfl⟩, rfl⟩
  · exact ⟨.inr (.inr (.inl ⟨rfl, rfl⟩)), rfl⟩
  · exact ⟨(DecPass.start hw hh hlen).inv, rfl⟩

/-- The start of an encode pass gives a legal pass or a latched error, within the bounds of R163, from any state (R202). -/
theorem startEncode_encInv (r : Raster) (s : State) :
    EncInv (startEncode r s) ∧ EncBounds (startEncode r s) ∧ (startEncode r s).ob.wf = true := by
  rcases startEncode_cases r s with ⟨⟨hw, hh⟩, h⟩ | ⟨_, h⟩ <;> rw [h]
  · have hpass : EncPass (encStart { s with src := r }) := EncPass.start hw hh
    exact ⟨hpass, hpass.bounds, Buffer.wf_ofBytes _⟩
  · exact ⟨⟨rfl, rfl⟩, (encUndefined_bounds _).raised, rfl⟩

theorem startDecode_keeps_inv {s : State} (h : Inv s) (bytes : List Byte) : Inv (startDecode bytes s) := by
  obtain ⟨hdec, himg⟩ := startDecode_decInv bytes s
  have hframe := startDecode_frame bytes s
  refine h.of_decoder ?_ ?_ himg hdec <;> rw [hframe]
  exact Buffer.wf_ofBytes bytes

theorem startEncode_keeps_inv {s : State} (h : Inv s) {r : Raster} (hr : r.wf = true) : Inv (startEncode r s) := by
  obtain ⟨henc, hbounds, hob⟩ := startEncode_encInv r s
  have hframe := startEncode_frame r s
  refine h.of_encoder ?_ ?_ hob henc hbounds <;> rw [hframe]
  exact hr

theorem hostStep_keeps_inv {op : HostOp} {s t : State} (h : Inv s) (hop : op.wf) (hs : hostStep op s = .next t) :
    Inv t := by
  rcases hostStep_cases hs with ⟨rfl, rfl⟩ | ⟨bytes, rfl, _, rfl⟩ | ⟨r, rfl, _, rfl⟩
  · exact hostReset_keeps_inv h
  · exact startDecode_keeps_inv h bytes
  · exact startEncode_keeps_inv h hop

/-! ### The units -/

theorem DecInv.pass {s : State} (h : DecInv s) (hr : s.dec.status = .running) : DecPass s := by
  simpa only [DecInv, hr] using h

theorem EncInv.pass {s : State} (h : EncInv s) (hr : s.enc.status = .running) : EncPass s := by
  simpa only [EncInv, hr] using h

theorem exec_keeps_inv {i : Instr} {s t : State} (h : Inv s) (hr : s.dec.status = .running) (hs : exec i s = .next t) :
    Inv t := by
  obtain ⟨hdec, himg⟩ := (h.dec.pass hr).exec_inv hr hs
  have hframe := exec_frame hs
  refine h.of_decoder ?_ ?_ (himg h.mem.img) hdec <;> rw [hframe]
  exact h.mem.ib

/-- A legal pass that ends at the start of a row satisfies the encoder's invariant. -/
theorem EncPass.inv {s : State} (h : EncPass s) (hdone : s.enc.status = .done → s.enc.x = 0) : EncInv s := by
  unfold EncInv
  rcases encStatusAt_cases s.enc.y s.enc.h with hs | hs <;> rw [← h.status] at hs <;> simp only [hs]
  · exact h
  · exact ⟨h, hdone hs⟩

theorem takePixel_keeps_inv {s : State} (h : Inv s) (hr : s.enc.status = .running) (p : Pixel) :
    Inv (takePixel p s) := by
  have hpass := h.enc.pass hr
  obtain ⟨hnext, hdone⟩ := hpass.takePixel (p := p) hr
  obtain ⟨bs, hob⟩ := takePixel_ob (p := p) hpass.run_max
  have hframe := takePixel_frame p s
  refine h.of_encoder ?_ ?_ ?_ (hnext.inv hdone) hnext.bounds
  · rw [hframe]
  · rw [hframe]; exact h.mem.src
  · rw [hob]; exact Buffer.wf_pushAll h.mem.ob bs

end Sys2Proof.Machine
end

section
/-! SUPPORT. The statements about the state, settled. -/

namespace Sys2Proof.Machine

/-- Settles O42: a host operation, a token or a pixel, each keeps the invariant. -/
theorem stepKeepsInv : Obligations.StepKeepsInv := by
  intro s t h hstep
  rcases step_cases hstep with ⟨op, rest, hhost, hs⟩ | ⟨_, hr, c, _, hs⟩ | ⟨_, hr, p, _, rfl⟩
  · obtain ⟨hop, hpop⟩ := h.popHost hhost
    exact hostStep_keeps_inv hpop hop hs
  · exact exec_keeps_inv h hr hs
  · exact takePixel_keeps_inv h hr p

/-- Settles O12: each unit's step depends on its own registers and memories (`exec_same`, `takePixel_withDecoder`) and writes
no others (`exec_frame`). -/
theorem unitStepsCommute : Obligations.UnitStepsCommute := by
  intro s t u hdec henc
  obtain ⟨c, hc, hs⟩ | ⟨_, hs⟩ := decStep_cases s
  case inr => rw [hs] at hdec; cases hdec
  obtain ⟨_, hs'⟩ | ⟨p, hp, hs'⟩ := encStep_cases s
  case inl => rw [hs'] at henc; cases henc
  rw [hs] at hdec
  rw [hs'] at henc
  injection henc with henc
  have ht : t = withDecoder t.dec t.img s := exec_frame hdec
  have hu : SameDec s u := by rw [← henc, takePixel_frame]; exact ⟨rfl, rfl, rfl⟩
  obtain ⟨v, hv, hsame⟩ := exec_same hu hdec
  have hvu : v = takePixel p t :=
    calc v
      _ = withDecoder v.dec v.img u := exec_frame hv
      _ = withDecoder t.dec t.img (takePixel p s) := by rw [← hsame.dec, ← hsame.img, henc]
      _ = takePixel p t := by rw [← takePixel_withDecoder, ← ht]
  refine ⟨v, ?_, ?_⟩
  · have hpt : t.src.getPixel t.enc.x t.enc.y = some p := by rw [ht]; exact hp
    rw [hvu, encStep, hpt]
  · have hcu : u.ib.read8 u.dec.off = some c := by rw [← hu.ib, ← hu.dec]; exact hc
    rw [decStep, fetch, hcu]
    exact hv

/-- Settles O20: the frame of `exec_frame`, and what the token does inside it. -/
theorem tokenFrame : Obligations.TokenFrame := by
  intro i s t h
  have hframe := exec_frame h
  refine ⟨by rw [hframe], by rw [hframe], by rw [hframe], by rw [hframe], by rw [hframe], by rw [hframe],
    by rw [hframe], ?_⟩
  rcases exec_passed_or_raised h with hp | ⟨e, rfl⟩
  · obtain ⟨hw, hh, hcause, hinfo⟩ := hp.kept
    exact ⟨hw, hh, fun _ => ⟨hcause, hinfo⟩, hp.img_eq, hp.width, hp.height, hp.rows⟩
  · exact ⟨rfl, rfl, fun hne => absurd rfl hne, fun _ => rfl, rfl, rfl, fun _ _ _ => rfl⟩

/-- Settles O21: a token passes (`TokenPassed`) or raises, and not both. -/
theorem offsetAdvance : Obligations.OffsetAdvance := by
  refine ⟨fun n => ⟨rfl, rfl, rfl⟩, fun f => rfl, fun i s t h => ?_⟩
  rcases exec_passed_or_raised h with hp | ⟨e, rfl⟩
  · refine ⟨fun _ => ⟨hp.valid, hp.off_eq, fun hlt => ?_⟩, fun hf => absurd hf hp.not_faulted⟩
    rw [hp.off_eq]
    exact hp.fits hlt
  · exact ⟨fun hne => absurd rfl hne, fun _ => rfl⟩

/-- Settles O22: only a running unit steps, and its step is framed by `exec_frame` or `takePixel_frame`. -/
theorem idleUnitsStay : Obligations.IdleUnitsStay := by
  intro s hhost
  refine ⟨fun hd he => ?_, fun t hstep hd => ?_, fun t hstep he => ?_⟩
  · rcases step_units hhost with ⟨hr, _⟩ | ⟨hr, _⟩ | ⟨_, _, hs⟩
    · exact absurd hr hd
    · exact absurd hr he
    · exact hs
  · rcases step_cases hstep with ⟨op, rest, hpend, _⟩ | ⟨_, hr, _⟩ | ⟨_, _, p, _, rfl⟩
    · rw [hhost] at hpend; cases hpend
    · exact absurd hr hd
    · rw [takePixel_frame]; exact ⟨rfl, rfl, rfl⟩
  · rcases step_cases hstep with ⟨op, rest, hpend, _⟩ | ⟨_, _, c, _, hs⟩ | ⟨_, hr, _⟩
    · rw [hhost] at hpend; cases hpend
    · rw [exec_frame hs]; exact ⟨rfl, rfl, rfl⟩
    · exact absurd hr he

/-- Settles O23: a host operation, a token or a pixel, each makes one of the transitions in its own unit. -/
theorem statusTransitions : Obligations.StatusTransitions := by
  intro s t hstep
  rcases step_cases hstep with ⟨op, rest, hhost, hs⟩ | ⟨_, hr, c, _, hs⟩ | ⟨_, hr, p, _, rfl⟩
  · rw [hhost, List.head?_cons]
    rcases hostStep_cases hs with ⟨rfl, rfl⟩ | ⟨bytes, rfl, hidle, rfl⟩ | ⟨r, rfl, hidle, rfl⟩
    · exact ⟨.inr (.inl ⟨rfl, rfl, rfl⟩), .inr (.inl ⟨rfl, rfl, rfl⟩)⟩
    · refine ⟨.inr (.inr (.inl ⟨hidle, bytes, rfl⟩)), .inl ?_⟩
      rw [startDecode_frame]
    · refine ⟨.inl ?_, .inr (.inr (.inl ⟨hidle, startEncode_status r _, r, rfl⟩))⟩
      rw [startEncode_frame]
  · refine ⟨?_, .inl ?_⟩
    · rcases exec_status hs with h | hend
      · exact .inl (h.trans hr.symm)
      · exact .inr (.inr (.inr ⟨hr, hend⟩))
    · rw [exec_frame hs]
  · refine ⟨.inl ?_, ?_⟩
    · rw [takePixel_frame]
    · rcases takePixel_status p s with h | hdone
      · exact .inl (h.trans hr.symm)
      · exact .inr (.inr (.inr ⟨hr, hdone⟩))

end Sys2Proof.Machine
end

section
/-! SUPPORT. How many bytes the encoder emits: for a token, before a pixel joins the run, and in a whole step. -/

namespace Sys2Proof.Machine

theorem encodeToken_length_eq (t : Token) : (encodeToken t).length = 1 + 2 * t.payload.length := by
  rw [encodeToken, List.length_cons, flatMap_wordBytes_length, Nat.add_comm]

theorem runWords_length_le (e : EncUnit) : (runWords e).length ≤ e.runLen := List.length_take_le _ _

/-- The token of a run carries at most one word per pixel (R139 to R141). -/
theorem encodeToken_runToken_length_le (single : SingleOpaque) (e : EncUnit) :
    (encodeToken (runToken single e)).length ≤ 1 + 2 * e.runLen := by
  have hwords := runWords_length_le e
  rw [encodeToken_length_eq]
  rcases runToken_cases single e with ⟨_, h⟩ | ⟨_, _, _, h⟩ | ⟨_, _, h⟩ <;> rw [h]
  · simp
  · rw [List.length_take]; omega
  · exact Nat.add_le_add_left (Nat.mul_le_mul_left 2 hwords) 1

/-- What was emitted before the pixel joined the run and what the run can still become share one budget: a flush of up to
65 bytes leaves a run of one pixel, and without a flush nothing was emitted (R134, R135, R148). -/
theorem Joined.emitted {p : Pixel} {s u : State} (h : Joined p s u) (hmax : s.enc.runLen ≤ 32) :
    ∃ bs, u.ob = s.ob.pushAll bs ∧ bs.length + 2 * u.enc.runLen ≤ 67 := by
  refine ⟨_, h.ob, ?_⟩
  by_cases hflush : flushesBefore (classOf p) s.enc
  · have htoken := encodeToken_runToken_length_le s.encSingleOpaque s.enc
    rw [h.len, if_pos hflush, if_pos hflush]
    omega
  · have hlen := h.len_le
    rw [if_neg hflush, List.length_nil]
    omega

/-- A step emits at most 69 bytes: at the row's end the run that is left and `0x80` follow (R136, R148). -/
theorem takePixel_emits (p : Pixel) {s : State} (hmax : s.enc.runLen ≤ 32) :
    ∃ bs, (takePixel p s).ob = s.ob.pushAll bs ∧ bs.length ≤ 69 := by
  obtain ⟨u, hjoined, hnext⟩ := takePixel_cases p s hmax
  obtain ⟨before, hob, hbudget⟩ := hjoined.emitted hmax
  rcases hnext with ⟨_, hnext⟩ | ⟨_, hnext⟩ <;> rw [hnext]
  · exact ⟨before, hob, by omega⟩
  · have htoken := encodeToken_runToken_length_le s.encSingleOpaque u.enc
    refine ⟨before ++ (encodeToken (runToken s.encSingleOpaque u.enc) ++ [0x80]), ?_, ?_⟩
    · rw [Buffer.pushAll_append s.ob before, ← hob]
    · simp only [List.length_append, List.length_singleton]
      omega

end Sys2Proof.Machine
end

section
/-! SUPPORT. The statements about the memories, settled. -/

namespace Sys2Proof.Machine

/-- Settles O30: the step takes in a pixel, and `takePixel_emits` bounds what that appends. -/
theorem encoderEmitsAtMost69Bytes : Obligations.EncoderEmitsAtMost69Bytes := by
  intro s t hpass hstep
  obtain ⟨_, hs⟩ | ⟨p, _, hs⟩ := encStep_cases s <;> rw [hs] at hstep <;> cases hstep
  obtain ⟨bs, hob, hlen⟩ := takePixel_emits p hpass.run_max
  exact ⟨bs, by rw [hob, Buffer.bytes_pushAll], hlen⟩

/-- Settles O44: a running unit of a legal state is in a legal pass, where its step answers a next state. -/
theorem legalStepsStayInBounds : Obligations.LegalStepsStayInBounds := by
  intro s r hinv hhost hrefused
  rcases step_units hhost with ⟨hr, hs⟩ | ⟨hr, hs⟩ | ⟨_, _, hs⟩ <;> rw [hs] at hrefused
  · obtain ⟨c, t, _, hexec, hnext⟩ := (hinv.dec.pass hr).step_next hr
    rw [hexec, hnext] at hrefused
    cases hrefused
  · obtain ⟨p, _, hnext⟩ := (hinv.enc.pass hr).step_next hr
    rw [hnext] at hrefused
    cases hrefused
  · cases hrefused

end Sys2Proof.Machine
end

section
/-! SUPPORT. Decoding inverts encoding, in both directions: for the control byte, for the payload words, for a whole token. -/

namespace Sys2Proof

/-! ### The control byte -/

/-- The eight rows of the opcode map (R66): the opcode of a control byte, and the instruction it stands for. -/
theorem decode_cases (c : Byte) :
    (opcodeOf c = 0 ∧ decode c = .pixelStream (runLength c)) ∨ (opcodeOf c = 1 ∧ decode c = .transparent (runLength c)) ∨
    (opcodeOf c = 2 ∧ decode c = .repeatRun (runLength c)) ∨ (opcodeOf c = 3 ∧ decode c = .invalid3 (lenField c)) ∨
    (opcodeOf c = 4 ∧ decode c = .newLine (lenField c)) ∨ (opcodeOf c = 5 ∧ decode c = .invalid5 (lenField c)) ∨
    (opcodeOf c = 6 ∧ decode c = .invalid6 (lenField c)) ∨ (opcodeOf c = 7 ∧ decode c = .invalid7 (lenField c)) := by
  have hop : ∀ op : BitVec 3, op = 0 ∨ op = 1 ∨ op = 2 ∨ op = 3 ∨ op = 4 ∨ op = 5 ∨ op = 6 ∨ op = 7 := by decide
  rcases hop (opcodeOf c) with h | h | h | h | h | h | h | h <;> simp [decode, h]

/-- Every control byte decodes to an instruction of the format (R64, R72). -/
theorem wellFormed_decode (c : Byte) : (decode c).wellFormed := by
  rcases decode_cases c with ⟨_, h⟩ | ⟨_, h⟩ | ⟨_, h⟩ | ⟨_, h⟩ | ⟨_, h⟩ | ⟨_, h⟩ | ⟨_, h⟩ | ⟨_, h⟩ <;> rw [h]
  case inl | inr.inl | inr.inr.inl => exact runLength_ok c
  all_goals trivial

/-- No bit of a control byte is lost: the opcode is the row's and the field is kept, as a run length or as it stands. -/
theorem encodeByte_decode (c : Byte) : encodeByte (decode c) = c := by
  have hfields : encodeByte (decode c) = controlByte (opcodeOf c) (lenField c) := by
    rcases decode_cases c with ⟨hop, h⟩ | ⟨hop, h⟩ | ⟨hop, h⟩ | ⟨hop, h⟩ | ⟨hop, h⟩ | ⟨hop, h⟩ | ⟨hop, h⟩ | ⟨hop, h⟩ <;>
      simp [h, hop, encodeByte]
  rw [hfields, controlByte_opcodeOf_lenField]

/-- The per-instruction laws as one. -/
theorem decode_encodeByte {i : Instr} (h : i.wellFormed) : decode (encodeByte i) = i := by
  cases i with
  | pixelStream n => exact Laws.DecodeEncode.pixelStream n h
  | transparent n => exact Laws.DecodeEncode.transparent n h
  | repeatRun n => exact Laws.DecodeEncode.repeatRun n h
  | invalid3 f => exact Laws.DecodeEncode.invalid3 f h
  | newLine f => exact Laws.DecodeEncode.newLine f h
  | invalid5 f => exact Laws.DecodeEncode.invalid5 f h
  | invalid6 f => exact Laws.DecodeEncode.invalid6 f h
  | invalid7 f => exact Laws.DecodeEncode.invalid7 f h

/-- The fields of the 32 control bytes that share the opcode `k` (R61, R64). -/
theorem fields_of_range (c : Byte) (k : Nat) (hlo : 32 * k ≤ c.toNat) (hhi : c.toNat < 32 * k + 32) :
    opcodeOf c = BitVec.ofNat 3 k ∧ lenField c = BitVec.ofNat 5 (c.toNat - 32 * k) ∧
      runLength c = c.toNat - 32 * k + 1 := by
  have hc := c.isLt
  have hop : (opcodeOf c).toNat = c.toNat / 32 % 8 := by
    simp [opcodeOf, BitVec.extractLsb'_toNat, Nat.shiftRight_eq_div_pow]
  have hlen : (lenField c).toNat = c.toNat % 32 := by
    simp [lenField, BitVec.extractLsb'_toNat]
  refine ⟨BitVec.eq_of_toNat_eq ?_, BitVec.eq_of_toNat_eq ?_, ?_⟩
  · rw [hop, BitVec.toNat_ofNat]; omega
  · rw [hlen, BitVec.toNat_ofNat]; omega
  · rw [runLength, hlen, Config.lenBias]; omega

/-! ### The payload words -/

@[simp] theorem wordBytes_le16 (b0 b1 : Byte) : wordBytes (le16 b0 b1) = [b0, b1] := by
  rw [wordBytes, lo8_le16, hi8_le16]

/-- The words taken are the ones whose bytes stand at the head. -/
theorem takeWords_eq_some {k : Nat} {bs rest : List Byte} {ws : List Word} :
    takeWords k bs = some (ws, rest) ↔ ws.length = k ∧ ws.flatMap wordBytes ++ rest = bs := by
  constructor
  · intro h
    induction k, bs using takeWords.induct generalizing ws with
    | case1 bs => cases h; exact ⟨rfl, rfl⟩
    | case2 k b0 b1 bs ws' rest' htake ih =>
      rw [takeWords, htake] at h
      cases h
      obtain ⟨hlen, hbytes⟩ := ih htake
      exact ⟨congrArg (· + 1) hlen, by simp [← hbytes]⟩
    | case3 k b0 b1 bs hnone => rw [takeWords, hnone] at h; cases h
    | case4 k bs hshort =>
      rw [takeWords] at h
      · cases h
      · exact hshort
  · rintro ⟨rfl, rfl⟩
    exact takeWords_flatMap ws rest

/-! ### Whole tokens -/

/-- A token is decoded from its control byte, if the opcode is valid, and from the words that follow it (R63). -/
theorem decodeToken_cons_eq_ok {c : Byte} {bs rest : List Byte} {t : Token} :
    decodeToken (c :: bs) = .ok (t, rest) ↔
      t.instr = decode c ∧ isValidOpcode (decode c) = true ∧
        takeWords (payloadWords (decode c)) bs = some (t.payload, rest) := by
  obtain ⟨i, ws⟩ := t
  by_cases hvalid : isValidOpcode (decode c) = true
  · cases htake : takeWords (payloadWords (decode c)) bs with
    | none => simp [decodeToken, hvalid, htake]
    | some taken => simp [decodeToken, hvalid, htake, Prod.ext_iff, and_assoc, eq_comm (a := decode c)]
  · simp [decodeToken, hvalid]

/-- The tokens decoded from bytes are the well-formed ones whose encoding stands at the head (R60, R63, R72). -/
theorem decodeToken_eq_ok {bs rest : List Byte} {t : Token} :
    decodeToken bs = .ok (t, rest) ↔ t.wellFormed ∧ encodeToken t ++ rest = bs := by
  cases bs with
  | nil => simp [decodeToken, encodeToken]
  | cons c bs =>
    rw [decodeToken_cons_eq_ok, takeWords_eq_some, encodeToken, List.cons_append, List.cons.injEq]
    constructor
    · rintro ⟨hinstr, hvalid, hlen, hbytes⟩
      rw [← hinstr] at hvalid hlen
      exact ⟨⟨hvalid, hinstr ▸ wellFormed_decode c, hlen⟩, hinstr ▸ encodeByte_decode c, hbytes⟩
    · rintro ⟨⟨hvalid, hwf, hlen⟩, rfl, hbytes⟩
      rw [decode_encodeByte hwf]
      exact ⟨rfl, hvalid, hlen, hbytes⟩

/-- No encoding of a well-formed token is the start of another's: the control byte fixes the length (R63). -/
theorem encodeToken_append_inj {t u : Token} {bs cs : List Byte} (ht : t.wellFormed) (hu : u.wellFormed)
    (h : encodeToken t ++ bs = encodeToken u ++ cs) : t = u ∧ bs = cs := by
  have hdec := decodeToken_eq_ok.2 ⟨ht, h⟩
  rw [decodeToken_eq_ok.2 ⟨hu, rfl⟩] at hdec
  cases hdec
  exact ⟨rfl, rfl⟩

end Sys2Proof
end

section
/-! SUPPORT. The statements about the encoding, settled. -/

namespace Sys2Proof

/-- Settles O3: the encoding stands at the head, which is when `decodeToken_eq_ok` decodes the token. -/
theorem tokenDecodesAsEncoded : Obligations.TokenDecodesAsEncoded :=
  fun _ _ h => decodeToken_eq_ok.2 ⟨h, rfl⟩

/-- Settles O4: the other direction of `decodeToken_eq_ok`. -/
theorem decodedTokenReencodes : Obligations.DecodedTokenReencodes :=
  fun _ _ _ h => decodeToken_eq_ok.1 h

/-- Settles O5, by induction on the first sequence: the heads have the same bytes, so they are one token. -/
theorem tokenStreamUnambiguous : Obligations.TokenStreamUnambiguous := by
  intro ts
  induction ts with
  | nil =>
    intro us _ _ h
    cases us with
    | nil => rfl
    | cons u us => simp [encodeTokens, encodeToken] at h
  | cons t ts ih =>
    intro us hts hus h
    cases us with
    | nil => simp [encodeTokens, encodeToken] at h
    | cons u us =>
      rw [List.forall_mem_cons] at hts hus
      obtain ⟨rfl, hrest⟩ := encodeToken_append_inj hts.1 hus.1 h
      rw [ih us hts.2 hus.2 hrest]

/-- Settles O1: the range fixes the opcode, and with it the row. -/
theorem opcodeMapComplete : Obligations.OpcodeMapComplete := by
  intro c
  have hc := c.isLt
  refine ⟨fun h => ?_, fun h => ?_, fun h => ?_, fun h => ?_, fun h => ?_, fun h => ?_, fun h => ?_, fun h => ?_,
    fun h => ?_⟩
  · obtain ⟨hop, -, hrun⟩ := fields_of_range c 0 (by omega) (by omega)
    simp [decode, hop, hrun, tokenLength, payloadWords]
  · obtain ⟨hop, -, hrun⟩ := fields_of_range c 1 (by omega) (by omega)
    simp [decode, hop, hrun, tokenLength, payloadWords]
  · obtain ⟨hop, -, hrun⟩ := fields_of_range c 2 (by omega) (by omega)
    simp [decode, hop, hrun, tokenLength, payloadWords, Config.wordBytes]
  · obtain ⟨hop, hfield, -⟩ := fields_of_range c 3 (by omega) (by omega)
    simp [decode, hop, hfield, isValidOpcode]
  · obtain ⟨hop, hfield, -⟩ := fields_of_range c 4 (by omega) (by omega)
    simp [decode, hop, hfield, tokenLength, payloadWords]
  · obtain ⟨hop, hfield, -⟩ := fields_of_range c 5 (by omega) (by omega)
    simp [decode, hop, hfield, isValidOpcode]
  · obtain ⟨hop, hfield, -⟩ := fields_of_range c 6 (by omega) (by omega)
    simp [decode, hop, hfield, isValidOpcode]
  · obtain ⟨hop, hfield, -⟩ := fields_of_range c 7 (by omega) (by omega)
    simp [decode, hop, hfield, isValidOpcode]
  · obtain ⟨hop, -, -⟩ := fields_of_range c (c.toNat / 32) (by omega) (by omega)
    have hrow : c.toNat / 32 = 0 ∨ c.toNat / 32 = 1 ∨ c.toNat / 32 = 2 ∨ c.toNat / 32 = 4 := by omega
    rcases hrow with h | h | h | h <;> simp [decode, hop, h, isValidOpcode]

/-- Settles O2: closed words, so the decoder is evaluated on each. -/
theorem specWordsDecode : Obligations.SpecWordsDecode :=
  ⟨rfl, rfl, rfl, rfl, rfl, rfl, rfl, rfl, rfl, rfl, rfl, rfl, rfl, rfl⟩

end Sys2Proof
end

section
/-! SUPPORT. The header codec: writing and parsing are inverse to each other, but for the reserved bytes; its statement,
settled. -/

namespace Sys2Proof.Machine

/-- A written header is parsed back whatever follows it: the parser reads the first 8 bytes alone (R80, R81). -/
theorem headerParse_headerWrite_append (w h : Word) (rest : List Byte) :
    headerParse (Buffer.ofBytes (headerWrite w h ++ rest)) = some (w, h) := by
  rw [headerWrite, headerParse_cons, le16_lo8_hi8, le16_lo8_hi8]

/-- Writing words keeps the bytes they were read from in their order; the reserved bytes become zero (R69, R81). -/
theorem headerWrite_le16 (b0 b1 b4 b5 : Byte) : headerWrite (le16 b0 b1) (le16 b4 b5) = [b0, b1, 0, 0, b4, b5, 0, 0] := by
  rw [headerWrite, lo8_le16, hi8_le16, lo8_le16, hi8_le16]

/-- Settles O10: any 8 bytes parse to the two words `headerParse_cons` names, which `headerWrite_le16` writes back. -/
theorem headerRoundTrip : Obligations.HeaderRoundTrip :=
  ⟨headerParse_headerWrite_append, fun b0 b1 b2 b3 b4 b5 b6 b7 rest =>
    ⟨le16 b0 b1, le16 b4 b5, headerParse_cons b0 b1 b2 b3 b4 b5 b6 b7 rest, headerWrite_le16 b0 b1 b4 b5⟩⟩

end Sys2Proof.Machine
end

section
/-! SUPPORT. The colour codec as arithmetic: what packing gives, and what a trip through the other form leaves of a word and of
a channel. -/

namespace Sys2Proof.Machine

/-! ### Masks and pixels as numbers -/

/-- Clearing bit 15 is the remainder by `2 ^ 15`. -/
theorem and_7FFF_toNat (w : Word) : (w &&& 0x7FFF#16).toNat = w.toNat % 32768 := by
  rw [BitVec.toNat_and]
  exact Nat.and_two_pow_sub_one_eq_mod w.toNat 15

/-- Masking a channel with `0xF8` clears its three low bits. -/
theorem and_F8_toNat (c : Byte) : (c &&& 0xF8#8).toNat = 8 * (c.toNat / 8) := by
  have h : c &&& 0xF8#8 = (c >>> 3) <<< 3 := by revert c; decide
  have hlt := c.isLt
  rw [h, BitVec.toNat_shiftLeft, BitVec.toNat_ushiftRight, Nat.shiftRight_eq_div_pow, Nat.shiftLeft_eq]
  omega

/-- Masking a channel with `0xF8` takes at most 7 from it. -/
theorem and_F8_bounds (c : Byte) : (c &&& 0xF8#8).toNat ≤ c.toNat ∧ c.toNat ≤ (c &&& 0xF8#8).toNat + 7 := by
  rw [and_F8_toNat]
  omega

/-- A pixel is its channels, each compared as a number. -/
theorem pixel_eq_of_toNat_eq {p q : Pixel} (hr : p.r.toNat = q.r.toNat) (hg : p.g.toNat = q.g.toNat)
    (hb : p.b.toNat = q.b.toNat) (ha : p.a = q.a) : p = q := by
  obtain ⟨r, g, b, a⟩ := p
  obtain ⟨r', g', b', a'⟩ := q
  rw [Pixel.mk.injEq]
  exact ⟨BitVec.eq_of_toNat_eq hr, BitVec.eq_of_toNat_eq hg, BitVec.eq_of_toNat_eq hb, ha⟩

/-! ### Packing -/

/-- A channel has five bits above its three low ones. -/
theorem channel_div_8_lt (c : Byte) : c.toNat / 8 < 2 ^ 5 := by
  have := c.isLt
  omega

/-- The five high bits of a channel, widened to a colour word. -/
theorem setWidth_shiftRight_toNat (c : Byte) : ((c >>> 3).setWidth 16 : Word).toNat = c.toNat / 8 := by
  have hc := channel_div_8_lt c
  rw [BitVec.toNat_setWidth, BitVec.toNat_ushiftRight, Nat.shiftRight_eq_div_pow]
  omega

/-- Moved up by at most 11 bits they stay inside the word. -/
theorem setWidth_shiftRight_shiftLeft_toNat (c : Byte) {k : Nat} (hk : k ≤ 11) :
    (((c >>> 3).setWidth 16 : Word) <<< k).toNat = (c.toNat / 8) <<< k := by
  have hlt : (c.toNat / 8) <<< k < 2 ^ 16 :=
    calc (c.toNat / 8) <<< k
      _ = c.toNat / 8 * 2 ^ k := Nat.shiftLeft_eq _ _
      _ < 2 ^ 5 * 2 ^ k := Nat.mul_lt_mul_of_pos_right (channel_div_8_lt c) (Nat.two_pow_pos k)
      _ ≤ 2 ^ 5 * 2 ^ 11 := Nat.mul_le_mul_left _ (Nat.pow_le_pow_right (by decide) hk)
      _ = 2 ^ 16 := rfl
  rw [BitVec.toNat_shiftLeft, setWidth_shiftRight_toNat, Nat.mod_eq_of_lt hlt]

/-- The three fields of a colour word stand side by side, so that joining them with `|||` adds them up (R91). -/
theorem pack555_toNat (p : Pixel) :
    (pack555 p).toNat = 1024 * (p.r.toNat / 8) + 32 * (p.g.toNat / 8) + p.b.toNat / 8 := by
  have hg := channel_div_8_lt p.g
  have hb := channel_div_8_lt p.b
  have hgb : (p.g.toNat / 8) <<< 5 + p.b.toNat / 8 < 2 ^ 10 := by rw [Nat.shiftLeft_eq]; omega
  calc (pack555 p).toNat
    _ = (p.r.toNat / 8) <<< 10 ||| ((p.g.toNat / 8) <<< 5 ||| p.b.toNat / 8) := by
      rw [pack555, BitVec.toNat_or, BitVec.toNat_or, setWidth_shiftRight_shiftLeft_toNat p.r (by decide),
        setWidth_shiftRight_shiftLeft_toNat p.g (by decide), setWidth_shiftRight_toNat, Nat.or_assoc]
    _ = (p.r.toNat / 8) <<< 10 ||| ((p.g.toNat / 8) <<< 5 + p.b.toNat / 8) := by
      rw [Nat.shiftLeft_add_eq_or_of_lt hb]
    _ = (p.r.toNat / 8) <<< 10 + ((p.g.toNat / 8) <<< 5 + p.b.toNat / 8) := by
      rw [Nat.shiftLeft_add_eq_or_of_lt hgb]
    _ = 1024 * (p.r.toNat / 8) + 32 * (p.g.toNat / 8) + p.b.toNat / 8 := by
      rw [Nat.shiftLeft_eq, Nat.shiftLeft_eq]
      omega

/-- The colour word determines the five high bits of each channel, and they determine it. -/
theorem pack555_eq_iff (p q : Pixel) :
    pack555 p = pack555 q ↔
      p.r.toNat / 8 = q.r.toNat / 8 ∧ p.g.toNat / 8 = q.g.toNat / 8 ∧ p.b.toNat / 8 = q.b.toNat / 8 := by
  have hpg := channel_div_8_lt p.g
  have hpb := channel_div_8_lt p.b
  have hqg := channel_div_8_lt q.g
  have hqb := channel_div_8_lt q.b
  rw [← BitVec.toNat_inj, pack555_toNat, pack555_toNat]
  omega

/-! ### Unpacking -/

/-- Unpacking does not read bit 15 (R90). -/
@[simp] theorem unpack555_and_7FFF (w : Word) : unpack555 (w &&& 0x7FFF#16) = unpack555 w := by
  refine pixel_eq_of_toNat_eq ?_ ?_ ?_ rfl
  · rw [unpack555_r_toNat, unpack555_r_toNat, and_7FFF_toNat]; omega
  · rw [unpack555_g_toNat, unpack555_g_toNat, and_7FFF_toNat]; omega
  · rw [unpack555_b_toNat, unpack555_b_toNat, and_7FFF_toNat]; omega

/-! ### There and back -/

/-- Packing undoes unpacking but for bit 15 (R92). -/
@[simp] theorem pack555_unpack555 (w : Word) : pack555 (unpack555 w) = w &&& 0x7FFF#16 := by
  apply BitVec.eq_of_toNat_eq
  rw [pack555_toNat, unpack555_r_toNat, unpack555_g_toNat, unpack555_b_toNat, and_7FFF_toNat]
  omega

/-- A packed word has no bit 15 to clear. -/
@[simp] theorem pack555_and_7FFF (p : Pixel) : pack555 p &&& 0x7FFF#16 = pack555 p := by
  have hlt : 2 * (pack555 p).toNat < 2 ^ 16 := BitVec.msb_eq_false_iff_two_mul_lt.1 (pack_msb p)
  apply BitVec.eq_of_toNat_eq
  rw [and_7FFF_toNat]
  omega

/-- Unpacking what was packed clears the three low bits of each channel and sets the alpha (R93). -/
theorem unpack555_pack555 (p : Pixel) :
    unpack555 (pack555 p) = ⟨p.r &&& 0xF8#8, p.g &&& 0xF8#8, p.b &&& 0xF8#8, 255⟩ := by
  have hr := channel_div_8_lt p.r
  have hg := channel_div_8_lt p.g
  have hb := channel_div_8_lt p.b
  refine pixel_eq_of_toNat_eq ?_ ?_ ?_ rfl
  · rw [unpack555_r_toNat, pack555_toNat, and_F8_toNat]; omega
  · rw [unpack555_g_toNat, pack555_toNat, and_F8_toNat]; omega
  · rw [unpack555_b_toNat, pack555_toNat, and_F8_toNat]; omega

end Sys2Proof.Machine
end

section
/-! SUPPORT. Every pixel of the decoder's raster is one a decoder can deliver (R121): what a unit or the host does to the
raster keeps it so. -/

namespace Sys2Proof.Machine

/-- A pixel drawn from a colour word is one a decoder can deliver (R90, R121). -/
theorem decodedPixel_unpack555 (w : Word) : decodedPixel (unpack555 w) := by
  have hr := unpack555_r_toNat w
  have hg := unpack555_g_toNat w
  have hb := unpack555_b_toNat w
  refine .inr ⟨w.toNat / 1024 % 32, w.toNat / 32 % 32, w.toNat % 32, by omega, by omega, by omega, ?_⟩
  rw [← hr, ← hg, ← hb, BitVec.ofNat_toNat, BitVec.ofNat_toNat, BitVec.ofNat_toNat]
  rfl

/-- The claim reads the decoder's raster alone. -/
theorem ImgInv.congr {s t : State} (h : ImgInv s) (himg : t.img = s.img) : ImgInv t := by
  intro x y p hp
  rw [himg] at hp
  exact h x y p hp

/-- A new raster holds blank pixels alone (R45). -/
theorem imgInv_of_newBlank {s : State} {w h : Nat} (himg : s.img = newBlank w h) : ImgInv s := by
  intro x y p hp
  rw [himg] at hp
  obtain ⟨hx, hy⟩ := Raster.getPixel_some_lt hp
  rw [newBlank_getPixel (w := w) (h := h) hx hy] at hp
  injection hp with hp
  exact .inl hp.symm

/-- The start of a decode pass puts a blank raster in place, whatever the header says (R101, R201). -/
theorem startDecode_img (bytes : List Byte) (s : State) : ∃ w h, (startDecode bytes s).img = newBlank w h := by
  unfold startDecode
  rcases openDecode_cases { s with ib := Buffer.ofBytes bytes } with
    ⟨_, hs⟩ | ⟨_, _, _, _, hs⟩ | ⟨w, h, _, _, _, _, hs⟩ <;> rw [hs]
  · exact ⟨0, 0, rfl⟩
  · exact ⟨0, 0, rfl⟩
  · exact ⟨w.toNat, h.toNat, rfl⟩

/-- A host operation leaves the raster or puts a blank one in its place (R200 to R202). -/
theorem hostStep_keeps_imgInv {op : HostOp} {s t : State} (h : ImgInv s) (hs : hostStep op s = .next t) : ImgInv t := by
  rcases hostStep_cases hs with ⟨rfl, rfl⟩ | ⟨bytes, rfl, _, rfl⟩ | ⟨r, rfl, _, rfl⟩
  · exact imgInv_of_newBlank (w := 0) (h := 0) rfl
  · obtain ⟨_, _, himg⟩ := startDecode_img bytes s
    exact imgInv_of_newBlank himg
  · exact h.congr (by rw [startEncode_frame])

/-- After a run of pixels each place of the raster holds one of them or what it held before (R105, R117). -/
theorem Drawn.imgInv {ps : List Pixel} {s t : State} (hdrawn : Drawn ps s t) (h : ImgInv s)
    (hps : ∀ p ∈ ps, decodedPixel p) : ImgInv t := by
  intro c r p hp
  rw [hdrawn.pixels] at hp
  split at hp
  · rcases Option.or_eq_some_iff.1 hp with hnew | ⟨_, hold⟩
    · exact hps p (drawnAt_mem hnew)
    · exact h c r p hold
  · exact h c r p hp

/-- A token draws pixels of colour words, or leaves the raster (R103, R119). -/
theorem exec_keeps_imgInv {i : Instr} {s t : State} (h : ImgInv s) (hs : exec i s = .next t) : ImgInv t := by
  rcases exec_cases hs with ⟨ps, u, hdraw, hps, _, _, rfl⟩ | ⟨e, rfl, _⟩ | ⟨n, rfl, rfl⟩ | ⟨f, rfl, rfl⟩
  · have hdecoded : ∀ p ∈ ps, decodedPixel p := by
      intro p hp
      obtain ⟨w, rfl⟩ := hps p hp
      exact decodedPixel_unpack555 w
    exact ((drawAll_ok hdraw).imgInv h hdecoded).congr (retire_img _ u)
  · exact h.congr (raiseDec_img e s)
  · exact h.congr (by rw [retire_img, advXTimes_eq])
  · exact h.congr (by rw [retire_img, nextRow_img])

end Sys2Proof.Machine
end

section
/-! SUPPORT. The statements about the colour codec and the decoder's pixels, settled. -/

namespace Sys2Proof.Machine

/-- Settles O6: the lanes of the two directions, and the bit neither of them uses. -/
theorem colorCodecByLanes : Obligations.ColorCodecByLanes := by
  refine ⟨fun w => ?_, fun p => ⟨pack555_toNat p, pack_msb p⟩⟩
  exact ⟨unpack555_r_toNat w, unpack555_g_toNat w, unpack555_b_toNat w, unpack555_a w, (unpack555_and_7FFF w).symm⟩

/-- Settles O7: all three rest on `pack555_unpack555`; bit 15 is clear in a packed word and unread by unpacking. -/
theorem packAfterUnpack : Obligations.PackAfterUnpack := by
  refine ⟨pack555_unpack555, fun p => ?_, fun w => ?_⟩
  · rw [pack555_unpack555, pack555_and_7FFF]
  · rw [pack555_unpack555, unpack555_and_7FFF]

/-- Settles O8: the masked channels of `unpack555_pack555`, with the bounds of one mask. -/
theorem unpackAfterPack : Obligations.UnpackAfterPack := by
  intro p
  rw [unpack555_pack555]
  exact ⟨rfl, and_F8_bounds p.r, and_F8_bounds p.g, and_F8_bounds p.b⟩

/-- Settles O9: a colour word is three fields of five bits, and a number has one such division. -/
theorem packEqualIffHighBitsEqual : Obligations.PackEqualIffHighBitsEqual := pack555_eq_iff

/-- Settles O43: a host operation, a token or a pixel taken in, each keeps the raster's pixels deliverable. -/
theorem stepKeepsDecodedPixels : Obligations.StepKeepsDecodedPixels := by
  intro s t h hstep
  rcases step_cases hstep with ⟨op, rest, _, hs⟩ | ⟨_, _, c, _, hs⟩ | ⟨_, _, p, _, rfl⟩
  · have hpop : ImgInv { s with host := rest, epoch := s.epoch + 1 } := h.congr rfl
    exact hostStep_keeps_imgInv hpop hs
  · exact exec_keeps_imgInv h hs
  · exact h.congr (by rw [takePixel_frame])

end Sys2Proof.Machine
end

section
/-! SUPPORT. Decode passes from any bytes: what every token keeps a pass keeps, a pass ends within `LEN - 8` steps, and its result
depends on the bytes alone. -/

namespace Sys2Proof.Machine

/-! ### What a pass keeps -/

/-- A decoder step that answers a next state has executed an instruction. -/
theorem exec_of_decStep {s t : State} (h : decStep s = .next t) : ∃ i, exec i s = .next t := by
  rcases decStep_cases s with ⟨c, _, hs⟩ | ⟨_, hs⟩ <;> rw [hs] at h
  · exact ⟨decode c, h⟩
  · cases h

/-- A running pass that comes through `k + 1` steps comes through the first of them. -/
theorem runDec_succ_eq_next {k : Nat} {s t : State} (hr : s.dec.status = .running) (h : runDec (k + 1) s = .next t) :
    ∃ u, decStep s = .next u ∧ runDec k u = .next t := by
  cases hs : decStep s with
  | next u => exact ⟨u, rfl, by rwa [runDec_step hr hs] at h⟩
  | fault f => simp [runDec, hr, hs] at h
  | refused r => simp [runDec, hr, hs] at h

/-- What every token keeps, a decode pass keeps. -/
theorem runDec_induct {P : State → Prop} {k : Nat} {s t : State}
    (hP : ∀ i s t, s.dec.status = .running → exec i s = .next t → P s → P t) (h0 : P s) (h : runDec k s = .next t) :
    P t := by
  induction k generalizing s with
  | zero => cases h; exact h0
  | succ k ih =>
    by_cases hr : s.dec.status = .running
    · obtain ⟨u, hs, hu⟩ := runDec_succ_eq_next hr h
      obtain ⟨i, hi⟩ := exec_of_decStep hs
      exact ih (hP i s u hr hi h0) hu
    · rw [runDec_stop hr] at h
      cases h
      exact h0

theorem runDec_decInv {k : Nat} {s t : State} (h : DecInv s) (ht : runDec k s = .next t) : DecInv t :=
  runDec_induct (fun _ _ _ hr hi hs => ((hs.pass hr).exec_inv hr hi).1) h ht

theorem runDec_imgInv {k : Nat} {s t : State} (h : ImgInv s) (ht : runDec k s = .next t) : ImgInv t :=
  runDec_induct (fun _ _ _ _ hi hs => exec_keeps_imgInv hs hi) h ht

/-- No token returns the decoder to `Idle` (R16). -/
theorem runDec_ne_idle {k : Nat} {s t : State} (h : s.dec.status ≠ .idle) (ht : runDec k s = .next t) :
    t.dec.status ≠ .idle := by
  refine runDec_induct (P := fun s => s.dec.status ≠ .idle) (fun i s t _ hi _ => ?_) h ht
  rcases exec_status hi with hs | hs | hs <;> simp [hs]

/-- No token writes `DEC.W` or `DEC.H` (R11). -/
theorem exec_dims {i : Instr} {s t : State} (h : exec i s = .next t) : t.dec.w = s.dec.w ∧ t.dec.h = s.dec.h := by
  rcases exec_passed_or_raised h with hp | ⟨e, rfl⟩
  · exact ⟨hp.kept.1, hp.kept.2.1⟩
  · exact ⟨rfl, rfl⟩

theorem runDec_dims {k : Nat} {s t : State} (h : runDec k s = .next t) : t.dec.w = s.dec.w ∧ t.dec.h = s.dec.h := by
  refine runDec_induct (P := fun u => u.dec.w = s.dec.w ∧ u.dec.h = s.dec.h) (fun i u v _ hi hu => ?_) ⟨rfl, rfl⟩ h
  obtain ⟨hw, hh⟩ := exec_dims hi
  exact ⟨hw.trans hu.1, hh.trans hu.2⟩

/-! ### A pass ends -/

/-- A token that leaves the decoder running has moved the offset on, in the same buffer (R15). -/
theorem exec_progress {i : Instr} {s t : State} (h : exec i s = .next t) (hr : t.dec.status = .running) :
    t.ib = s.ib ∧ s.dec.off < t.dec.off := by
  rcases exec_passed_or_raised h with hp | ⟨e, rfl⟩
  · refine ⟨by rw [hp.frame], ?_⟩
    rw [hp.off_eq, tokenLength]
    omega
  · cases hr

/-- A step for each byte left is enough: every token takes one, or the pass ends in it (R115, R165). -/
theorem DecInv.runDec_ends {k : Nat} {s : State} (h : DecInv s)
    (hk : s.dec.status = .running → s.ib.len ≤ s.dec.off + k) :
    ∃ t, runDec k s = .next t ∧ t.dec.status ≠ .running := by
  induction k generalizing s with
  | zero =>
    refine ⟨s, rfl, fun hr => ?_⟩
    have hlt := (h.pass hr).off_lt hr
    have := hk hr
    omega
  | succ k ih =>
    by_cases hr : s.dec.status = .running
    · obtain ⟨c, u, _, hs, hu⟩ := (h.pass hr).step_next hr
      obtain ⟨t, ht, hend⟩ := ih (s := u) ((h.pass hr).exec_inv hr hu).1 fun hru => by
        obtain ⟨hib, hoff⟩ := exec_progress hu hru
        have := hk hr
        rw [hib]
        omega
      exact ⟨t, by rw [runDec_step hr (hs.trans hu), ht], hend⟩
    · exact ⟨s, runDec_stop hr _, hr⟩

/-! ### How a pass starts -/

theorem headerParse_some_len {b : Buffer} {wh : Word × Word} (h : headerParse b = some wh) : 8 ≤ b.len := by
  by_contra hlt
  rw [headerParse, if_pos (Nat.not_le.1 hlt)] at h
  cases h

/-- The bytes alone decide how a pass starts: with an error, or with the dimensions of the header (R192). -/
theorem startDecode_cases (bytes : List Byte) :
    (∃ e, ∀ s, startDecode bytes s = raiseDec e (decUndefined { s with ib := Buffer.ofBytes bytes })) ∨
    (∃ w h, headerParse (Buffer.ofBytes bytes) = some (w, h) ∧ w ≠ 0 ∧ h ≠ 0 ∧
      ∀ s, startDecode bytes s = decStart w h { s with ib := Buffer.ofBytes bytes }) := by
  cases hp : headerParse (Buffer.ofBytes bytes) with
  | none => exact .inl ⟨.truncatedInput, fun s => by simp [startDecode, openDecode, hp]⟩
  | some wh =>
    obtain ⟨w, h⟩ := wh
    by_cases hz : w = 0 ∨ h = 0
    · exact .inl ⟨.invalidHeader, fun s => by simp only [startDecode, openDecode, hp]; exact if_pos hz⟩
    · exact .inr ⟨w, h, rfl, fun hw => hz (.inl hw), fun hh => hz (.inr hh), fun s => by
        simp only [startDecode, openDecode, hp]; exact if_neg hz⟩

theorem startDecode_ne_idle (bytes : List Byte) (s : State) : (startDecode bytes s).dec.status ≠ .idle := by
  rcases startDecode_cases bytes with ⟨e, hs⟩ | ⟨w, h, _, _, _, hs⟩ <;> rw [hs]
  · rw [raiseDec_dec]; simp
  · rcases decStatusAt_cases Config.headerBytes (Buffer.ofBytes bytes).len with h | h <;> rw [decStart_dec, h] <;> simp

/-- A pass that runs has all bytes but the header's before it (R201). -/
theorem startDecode_running {bytes : List Byte} {s : State} (h : (startDecode bytes s).dec.status = .running) :
    (startDecode bytes s).ib.len ≤ (startDecode bytes s).dec.off + (bytes.length - 8) := by
  rcases startDecode_cases bytes with ⟨e, hs⟩ | ⟨w, h', hp, _, _, hs⟩
  · rw [hs] at h
    cases h
  · have hlen := headerParse_some_len hp
    rw [Buffer.ofBytes_len] at hlen
    simp only [hs, decStart_ib, decStart_dec, Buffer.ofBytes_len, Config.headerBytes]
    omega

/-! ### The whole pass -/

/-- From any bytes the pass ends, within `LEN - 8` steps (R115, R165, R174). -/
theorem decodePass_ends (bytes : List Byte) (s : State) :
    ∃ t, decodePass bytes s = .next t ∧ runDec (bytes.length - 8) (startDecode bytes s) = .next t ∧
      t.dec.status ≠ .running := by
  obtain ⟨t, ht, hend⟩ := (startDecode_decInv bytes s).1.runDec_ends startDecode_running
  refine ⟨t, ?_, ht, hend⟩
  have hlen : bytes.length = bytes.length - 8 + (bytes.length - (bytes.length - 8)) := by omega
  rw [decodePass, hlen, runDec_add ht, runDec_stop hend]

theorem decodePass_ne_running {bytes : List Byte} {s t : State} (h : decodePass bytes s = .next t) :
    t.dec.status ≠ .running := by
  obtain ⟨u, hu, _, hend⟩ := decodePass_ends bytes s
  rw [h] at hu
  cases hu
  exact hend

/-- A pass ends in a legal `Done` state or with an error latched. -/
theorem decodePass_cases {bytes : List Byte} {s t : State} (h : decodePass bytes s = .next t) :
    (t.dec.status = .done ∧ DecPass t) ∨ (t.dec.status = .faulted ∧ decErrorLatched t.dec.errCause t.dec.errInfo) := by
  have hinv := runDec_decInv (startDecode_decInv bytes s).1 h
  unfold DecInv at hinv
  cases hst : t.dec.status with
  | idle => exact absurd hst (runDec_ne_idle (startDecode_ne_idle bytes s) h)
  | running => exact absurd hst (decodePass_ne_running h)
  | done => exact .inl ⟨rfl, by simpa only [hst] using hinv⟩
  | faulted => exact .inr ⟨rfl, by simpa only [hst] using hinv⟩

/-- A pass that ends in `Done` had the header's dimensions (R11, R100). -/
theorem decodePass_header {bytes : List Byte} {s t : State} (h : decodePass bytes s = .next t)
    (hdone : t.dec.status = .done) : headerParse (Buffer.ofBytes bytes) = some (t.dec.w, t.dec.h) := by
  rcases startDecode_cases bytes with ⟨e, hs⟩ | ⟨w, h', hp, _, _, hs⟩ <;> rw [decodePass, hs] at h
  · rw [runDec_stop (by simp)] at h
    cases h
    cases hdone
  · obtain ⟨hw, hh⟩ := runDec_dims h
    rw [hp, hw, hh, decStart_dec]

/-! ### The result of a pass -/

theorem decStep_same {s s' t : State} (h : SameDec s s') (ht : decStep s = .next t) :
    ∃ t', decStep s' = .next t' ∧ SameDec t t' := by
  have hfetch : fetch s' = fetch s := by rw [fetch, fetch, h.ib, h.dec]
  rw [decStep] at ht
  cases hf : fetch s with
  | error r => rw [hf] at ht; cases ht
  | ok i =>
    rw [hf] at ht
    rw [decStep, hfetch, hf]
    exact exec_same h ht

/-- A decode pass depends on the decoder alone (R10). -/
theorem runDec_same {k : Nat} {s s' t : State} (h : SameDec s s') (ht : runDec k s = .next t) :
    ∃ t', runDec k s' = .next t' ∧ SameDec t t' := by
  induction k generalizing s s' with
  | zero => cases ht; exact ⟨s', rfl, h⟩
  | succ k ih =>
    by_cases hr : s.dec.status = .running
    · have hr' : s'.dec.status = .running := h.dec ▸ hr
      obtain ⟨u, hu, hrest⟩ := runDec_succ_eq_next hr ht
      obtain ⟨u', hu', hsame⟩ := decStep_same h hu
      rw [runDec_step hr' hu']
      exact ih hsame hrest
    · have hr' : s'.dec.status ≠ .running := h.dec ▸ hr
      rw [runDec_stop hr] at ht
      cases ht
      exact ⟨s', runDec_stop hr' _, h⟩

/-- What the host receives depends on the bytes alone: the start does, and from there the decoder is the same (R174). -/
theorem decodePass_result {bytes : List Byte} {s s' t t' : State} (h : decodePass bytes s = .next t)
    (h' : decodePass bytes s' = .next t') : decResult t' = decResult t := by
  rcases startDecode_cases bytes with ⟨e, hs⟩ | ⟨w, h0, _, _, _, hs⟩
  · rw [decodePass, hs, runDec_stop (by simp)] at h h'
    cases h
    cases h'
    rfl
  · have hstart : SameDec (startDecode bytes s) (startDecode bytes s') := by
      rw [hs, hs]
      exact ⟨rfl, rfl, rfl⟩
    obtain ⟨u, hu, hsame⟩ := runDec_same hstart h
    rw [decodePass, hu] at h'
    cases h'
    rw [decResult, decResult, hsame.dec, hsame.img]

/-- Settles O32: the pass ends (`decodePass_ends`), legal or faulted (`decodePass_cases`), with the dimensions of the header
(`decodePass_header`); its result is `decodePass_result`. -/
theorem decodePassEnds : Obligations.DecodePassEnds := by
  intro bytes s
  obtain ⟨t, hpass, hsteps, _⟩ := decodePass_ends bytes s
  refine ⟨t, hpass, hsteps, ?_, fun s' t' hpass' => decodePass_result hpass hpass'⟩
  rcases decodePass_cases hpass with ⟨hdone, hlegal⟩ | hfaulted
  · exact .inl ⟨hdone, t.dec.w, t.dec.h, decodePass_header hpass hdone, hlegal.img_width, hlegal.img_height⟩
  · exact .inr hfaulted

end Sys2Proof.Machine
end

section
/-! SUPPORT. An encode pass ends after one step per pixel, and its bytes decode to the quantized raster: at every pixel what was
emitted decodes to the pixels taken in, but for those of the accumulated run. -/

namespace Sys2Proof.Machine

/-! ### An encode pass ends -/

theorem startEncode_of_encDimOk {r : Raster} (s : State) (hw : encDimOk r.width) (hh : encDimOk r.height) :
    startEncode r s = encStart { s with src := r } := if_pos ⟨hw, hh⟩

/-- The pass of a raster of legal dimensions ends at the start of the row below its last (R130, R165). -/
theorem encodePass_ends {r : Raster} (s : State) (hw : encDimOk r.width) (hh : encDimOk r.height) :
    ∃ t, encodePass r s = .next t ∧ EncPass t ∧ t.enc.status = .done ∧ t.enc.x = 0 ∧ t.enc.y = r.height := by
  have hpass : EncPass (encStart { s with src := r }) := EncPass.start hw hh
  obtain ⟨t, ht, htpass, hwidth, hheight, hscan⟩ :=
    runEnc_scan (k := r.width * r.height) hpass (by simp [Nat.mul_comm])
  have hw_t : t.enc.w = r.width := hwidth
  have hh_t : t.enc.h = r.height := hheight
  have hx : t.enc.x < r.width := hw_t ▸ htpass.x_lt
  have hkey : r.key t.enc.x t.enc.y = r.key 0 r.height := by
    rw [hw_t] at hscan
    rw [Raster.key, hscan, Raster.key, Nat.mul_comm r.width]
    simp
  obtain ⟨hcol, hrow⟩ := Raster.key_inj hx (Nat.zero_lt_of_lt hx) hkey
  refine ⟨t, ?_, htpass, ?_, hcol, hrow⟩
  · rw [encodePass, startEncode_of_encDimOk s hw hh, ht]
  · rw [htpass.status, hrow, hh_t, encStatusAt, if_pos rfl]

/-! ### The bytes of an encode pass -/

/-- A pass over a written header starts in the state R201 gives. -/
theorem startDecode_headerWrite_append {w h : Word} (hw : w ≠ 0) (hh : h ≠ 0) (rest : List Byte) (s : State) :
    startDecode (headerWrite w h ++ rest) s = decStart w h { s with ib := Buffer.ofBytes (headerWrite w h ++ rest) } := by
  simp only [startDecode, openDecode, headerParse_headerWrite_append]
  exact if_neg (not_or.2 ⟨hw, hh⟩)

/-- The header field of a legal dimension holds it (R71, R131). -/
theorem toNat_ofNat_of_encDimOk {n : Nat} (h : encDimOk n) : (BitVec.ofNat 16 n : Word).toNat = n := by
  have := h.2
  rw [BitVec.toNat_ofNat]
  exact Nat.mod_eq_of_lt (by simp only [Config.maxDim] at this; omega)

theorem ofNat_ne_zero_of_encDimOk {n : Nat} (h : encDimOk n) : (BitVec.ofNat 16 n : Word) ≠ 0 := by
  intro hz
  have hn := toNat_ofNat_of_encDimOk h
  rw [hz] at hn
  exact h.1 hn.symm

/-- The header decodes to the start of the raster, blank (R81, R201). -/
theorem Decodes.header {r : Raster} (hw : encDimOk r.width) (hh : encDimOk r.height) :
    Decodes r 0 0 (headerWrite (BitVec.ofNat 16 r.width) (BitVec.ofNat 16 r.height)) := by
  intro rest s
  have hw0 := ofNat_ne_zero_of_encDimOk hw
  have hh0 := ofNat_ne_zero_of_encDimOk hh
  refine ⟨0, _, by rw [startDecode_headerWrite_append hw0 hh0]; rfl, ?_, ?_⟩
  · constructor
    case pass => exact DecPass.start hw0 hh0 (by simp [headerWrite])
    case w => exact toNat_ofNat_of_encDimOk hw
    case h => exact toNat_ofNat_of_encDimOk hh
    case x => simp
    case y => rfl
    case pixels =>
      intro c y p hp
      obtain ⟨hc, hy⟩ := Raster.getPixel_some_lt hp
      rw [decStart_img, toNat_ofNat_of_encDimOk hw, toNat_ofNat_of_encDimOk hh, newBlank_getPixel hc hy]
      simp
  · simp [headerWrite, Config.headerBytes]

/-- A run depends on the accumulator alone. -/
theorem RunIs.congr {r : Raster} {col row : Nat} {e e' : EncUnit} (h : RunIs r col row e) (hlen : e'.runLen = e.runLen)
    (hkind : e'.runKind = e.runKind) (hbuf : e'.runBuf = e.runBuf) : RunIs r col row e' := by
  have hwords : runWords e' = runWords e := by rw [runWords, runWords, hlen, hbuf]
  obtain ⟨hle, hfits, hrow, hnone, hpix⟩ := h
  exact ⟨hlen ▸ hle, hlen ▸ hfits, hrow, by rwa [hlen, hkind], by rwa [hlen, hkind, hwords]⟩

/-- An empty run stands anywhere inside the raster. -/
theorem RunIs.empty {r : Raster} {col row : Nat} {e : EncUnit} (hlen : e.runLen = 0) (hcol : col ≤ r.width)
    (hrow : row < r.height) : RunIs r col row e :=
  ⟨by omega, by omega, hrow, fun h => by omega, fun i hi => by omega⟩

/-- What was emitted up to the accumulated run decodes to the pixels of `r` before it, and the run holds the pixels from there to
column `x` of row `y`. -/
structure RunAfter (r : Raster) (x y : Nat) (bytes : List Byte) (e : EncUnit) : Prop where
  decodes : Decodes r (x - e.runLen) y bytes
  run : RunIs r (x - e.runLen) y e
  run_le : e.runLen ≤ x

/-- Flushed, the run joins what decodes (R137, R144). -/
theorem RunAfter.flushed {r : Raster} {x y : Nat} {bytes : List Byte} {e : EncUnit} (h : RunAfter r x y bytes e)
    (single : SingleOpaque) (h0 : 0 < e.runLen) : Decodes r x y (bytes ++ encodeToken (runToken single e)) := by
  have hd := h.decodes.run single h.run h0
  rwa [Nat.sub_add_cancel h.run_le] at hd

/-- The pixel at `(x, y)` joins the run, which was flushed before it where its class or its length asks for that (R134, R135,
R143). -/
theorem Joined.runAfter {r : Raster} {p : Pixel} {s u : State} (hj : Joined p s u) {x y : Nat}
    (hp : r.getPixel x y = some p) (h : RunAfter r x y s.ob.bytes s.enc) : RunAfter r (x + 1) y u.ob.bytes u.enc := by
  obtain ⟨hx, hy⟩ := Raster.getPixel_some_lt hp
  have hkind := hj.kind
  have hwords := hj.words
  have hlen := hj.len
  have hle := hj.len_le
  by_cases hflush : flushesBefore (classOf p) s.enc
  · rw [if_pos hflush] at hlen hwords
    have hbytes : u.ob.bytes = s.ob.bytes ++ encodeToken (runToken s.encSingleOpaque s.enc) := by
      rw [hj.ob, if_pos hflush, Buffer.bytes_pushAll]
    have hdec := h.flushed s.encSingleOpaque (by omega)
    refine ⟨by rw [hbytes, hlen]; exact hdec, ⟨hle, by omega, hy, fun _ => ?_, fun i hi => ?_⟩, by omega⟩
    · rw [hkind]
      exact classOf_ne_none p
    · obtain rfl : i = 0 := by omega
      refine ⟨p, by rw [hlen]; exact hp, hkind.symm, fun hk => ?_⟩
      rw [hwords (hkind ▸ hk)]
      rfl
  · rw [if_neg hflush] at hlen hwords
    have hbytes : u.ob.bytes = s.ob.bytes := by rw [hj.ob, if_neg hflush, Buffer.pushAll_nil]
    have hsame : 0 < s.enc.runLen → s.enc.runKind = classOf p := fun h0 => by
      by_contra hne
      exact hflush (.inr ⟨h0, hne⟩)
    have hstart : x + 1 - u.enc.runLen = x - s.enc.runLen := by omega
    have hrun_le := h.run_le
    have hl := runWords_length s.enc h.run.len
    refine ⟨by rw [hbytes, hstart]; exact h.decodes, ⟨hle, by omega, hy, fun _ => ?_, fun i hi => ?_⟩, by omega⟩
    · rw [hkind]
      exact classOf_ne_none p
    · rw [hstart, hkind]
      rcases Nat.lt_or_eq_of_le (show i ≤ s.enc.runLen by omega) with hlt | rfl
      · obtain ⟨q, hq, hclass, hword⟩ := h.run.pix i hlt
        rw [hsame (by omega)] at hclass hword
        refine ⟨q, hq, hclass, fun hk => ?_⟩
        rw [hwords hk, List.getElem?_append_left (by omega)]
        exact hword hk
      · refine ⟨p, by rw [Nat.sub_add_cancel hrun_le]; exact hp, rfl, fun hk => ?_⟩
        rw [hwords hk, List.getElem?_append_right (by omega), hl]
        simp

/-- What an encode pass of `r` keeps: while rows are left, what was emitted and the run, together, are the pixels taken in; after
the last row what was emitted is all of them. -/
structure Encoded (r : Raster) (s : State) : Prop where
  src : s.src = r
  running : s.enc.y < r.height → RunAfter r s.enc.x s.enc.y s.ob.bytes s.enc
  ended : s.enc.y = r.height → Decodes r 0 r.height s.ob.bytes

theorem Encoded.start {r : Raster} (s : State) (hw : encDimOk r.width) (hh : encDimOk r.height) :
    Encoded r (encStart { s with src := r }) := by
  have hbytes : (encStart { s with src := r }).ob.bytes =
      headerWrite (BitVec.ofNat 16 r.width) (BitVec.ofNat 16 r.height) := by rw [encStart_ob, Buffer.bytes_ofBytes]
  refine ⟨rfl, fun hlt => ⟨?_, RunIs.empty rfl (Nat.zero_le _) hlt, Nat.le_refl 0⟩, fun h0 => absurd h0.symm hh.1⟩
  rw [hbytes]
  exact Decodes.header hw hh

/-- Every pixel keeps it: the pixel joins the run, and on the last column the run and `NewLine` are emitted (R136, R143). -/
theorem Encoded.takePixel {r : Raster} {s : State} {p : Pixel} (h : Encoded r s) (hpass : EncPass s)
    (hp : s.src.getPixel s.enc.x s.enc.y = some p) : Encoded r (takePixel p s) := by
  have hw : s.enc.w = r.width := by rw [← h.src]; exact hpass.src_width.symm
  have hp : r.getPixel s.enc.x s.enc.y = some p := h.src ▸ hp
  obtain ⟨hx, hy⟩ := Raster.getPixel_some_lt hp
  obtain ⟨u, hj, ⟨hcol, hnext⟩ | ⟨hcol, hnext⟩⟩ := takePixel_cases p s hpass.run_max
  all_goals
    have hsrc : u.src = r := by rw [hj.frame]; exact h.src
    obtain ⟨hdec, hrun, hle⟩ := hj.runAfter hp (h.running hy)
    rw [hnext]
  · refine ⟨hsrc, fun _ => ?_, fun he => ?_⟩
    · show RunAfter r (s.enc.x + 1) u.enc.y u.ob.bytes _
      rw [hj.y]
      exact ⟨hdec, hrun.congr rfl rfl rfl, hle⟩
    · have : u.enc.y = r.height := he
      rw [hj.y] at this
      omega
  · have hpos : 0 < u.enc.runLen := by rw [hj.len]; split <;> omega
    have hrow : Decodes r 0 (s.enc.y + 1)
        (u.ob.pushAll (encodeToken (runToken s.encSingleOpaque u.enc) ++ [0x80])).bytes := by
      rw [Buffer.bytes_pushAll, ← List.append_assoc]
      have hflushed := RunAfter.flushed ⟨hdec, hrun, hle⟩ s.encSingleOpaque hpos
      rw [show s.enc.x + 1 = r.width by omega] at hflushed
      exact hflushed.newLine
    refine ⟨hsrc, fun hlt => ⟨hrow, RunIs.empty rfl (Nat.zero_le _) hlt, Nat.le_refl 0⟩, fun he => ?_⟩
    have he : s.enc.y + 1 = r.height := he
    rwa [he] at hrow

theorem encodePass_encoded {r : Raster} {s t : State} (hw : encDimOk r.width) (hh : encDimOk r.height)
    (h : encodePass r s = .next t) : Encoded r t := by
  rw [encodePass, startEncode_of_encDimOk s hw hh] at h
  exact (runEnc_induct (fun _ _ hpass _ hp he => he.takePixel hpass hp) (EncPass.start hw hh)
    (Encoded.start s hw hh) h).2

/-! ### The round trip -/

/-- Bytes that decode to the end of a raster decode without error to the quantized raster. -/
theorem Decodes.decodePass {r : Raster} {bytes : List Byte} (h : Decodes r 0 r.height bytes) (s : State) :
    ∃ u, decodePass bytes s = .next u ∧ u.dec.status = .done ∧ u.img.width = r.width ∧ u.img.height = r.height ∧
      ∀ x y p, r.getPixel x y = some p → u.img.getPixel x y = some (quant p) := by
  obtain ⟨k, d, hd, hat, hend⟩ := h [] s
  rw [List.append_nil] at hd
  have hoff : d.dec.off = d.ib.len := by
    have hlen := List.drop_eq_nil_iff.1 hend
    rw [Buffer.bytes_length] at hlen
    exact Nat.le_antisymm hat.pass.off_le hlen
  have hdone : d.dec.status = .done := by rw [hat.pass.status, hoff, decStatusAt, if_pos rfl]
  obtain ⟨u, hu, _, hstop⟩ := decodePass_ends bytes s
  obtain rfl : d = u := runDec_unique hd (by simp [hdone]) hu hstop
  refine ⟨d, hu, hdone, hat.pass.img_width.trans hat.w, hat.pass.img_height.trans hat.h, fun x y p hp => ?_⟩
  have hy := (Raster.getPixel_some_lt hp).2
  rw [hat.pixels x y p hp, if_pos (.inl hy)]

/-- Encoding a raster and decoding the bytes ends both passes without error and gives the quantized raster (R170). -/
theorem decode_encode_quant {r : Raster} (s s' : State) (hw : encDimOk r.width) (hh : encDimOk r.height) :
    ∃ t u, encodePass r s = .next t ∧ t.enc.status = .done ∧ decodePass t.ob.bytes s' = .next u ∧ u.dec.status = .done ∧
      u.img.width = r.width ∧ u.img.height = r.height ∧
      ∀ x y p, r.getPixel x y = some p → u.img.getPixel x y = some (quant p) := by
  obtain ⟨t, ht, _, hdone, _, hy⟩ := encodePass_ends s hw hh
  have hbytes := (encodePass_encoded hw hh ht).ended hy
  obtain ⟨u, hu⟩ := hbytes.decodePass s'
  exact ⟨t, u, ht, hdone, hu⟩

/-- Quantization masks the channels of an opaque pixel and blanks a transparent one (R93, R170). -/
theorem quant_eq (p : Pixel) :
    quant p = if p.a = 0 then ⟨0, 0, 0, 0⟩ else ⟨p.r &&& 0xF8#8, p.g &&& 0xF8#8, p.b &&& 0xF8#8, 255⟩ := by
  rw [quant, unpack555_pack555]

/-- Settles O38: `decode_encode_quant`, with the channels written out. -/
theorem roundTrip : Obligations.RoundTrip := by
  intro r s s' hw hh
  obtain ⟨t, u, ht, htdone, hu, hudone, hwidth, hheight, hpix⟩ := decode_encode_quant s s' hw hh
  refine ⟨t, u, ht, htdone, hu, hudone, hwidth, hheight, fun x y p hp => ?_⟩
  rw [← quant_eq]
  exact hpix x y p hp

/-! ### A decoded image -/

/-- A multiple of 8 has no low bits to lose. -/
theorem ofNat_eight_mul_and_F8 (i : Nat) : BitVec.ofNat 8 (8 * i) &&& 0xF8#8 = BitVec.ofNat 8 (8 * i) := by
  apply BitVec.eq_of_toNat_eq
  rw [and_F8_toNat, BitVec.toNat_ofNat]
  omega

/-- Quantization leaves a pixel a decoder can deliver as it is (R121, R172). -/
theorem quant_of_decodedPixel {p : Pixel} (h : decodedPixel p) : quant p = p := by
  rcases h with rfl | ⟨i, j, k, _, _, _, rfl⟩
  · rfl
  · have hopaque : (255 : Byte) ≠ 0 := by decide
    rw [quant_eq, if_neg hopaque, ofNat_eight_mul_and_F8, ofNat_eight_mul_and_F8, ofNat_eight_mul_and_F8]

theorem decodePass_imgInv {bytes : List Byte} {s t : State} (h : decodePass bytes s = .next t) : ImgInv t := by
  obtain ⟨_, _, himg⟩ := startDecode_img bytes s
  exact runDec_imgInv (imgInv_of_newBlank himg) h

theorem encDimOk_toNat {w : Word} (h : w ≠ 0) : encDimOk w.toNat :=
  ⟨Nat.ne_of_gt (word_pos h), Nat.le_of_lt_succ w.isLt⟩

/-- The image of a pass that ended in `Done` has dimensions an encode pass accepts. -/
theorem decodePass_encDimOk {bytes : List Byte} {s t : State} (h : decodePass bytes s = .next t)
    (hdone : t.dec.status = .done) : encDimOk t.img.width ∧ encDimOk t.img.height := by
  rcases decodePass_cases h with ⟨_, hpass⟩ | ⟨hfault, _⟩
  · rw [hpass.img_width, hpass.img_height]
    exact ⟨encDimOk_toNat hpass.w_pos, encDimOk_toNat hpass.h_pos⟩
  · rw [hdone] at hfault
    cases hfault

theorem Raster.getPixel_eq_none {r : Raster} {x y : Nat} : r.getPixel x y = none ↔ ¬ (x < r.width ∧ y < r.height) := by
  unfold Raster.getPixel
  split <;> simp [*]

/-- Settles O40: the round trip quantizes the decoded image, and its pixels are quantized already. -/
theorem decodedImageIsStable : Obligations.DecodedImageIsStable := by
  intro bytes s s' s'' t u v ht hdone hu hv
  obtain ⟨hw, hh⟩ := decodePass_encDimOk ht hdone
  obtain ⟨u', v', hu', _, hv', hvdone, hwidth, hheight, hpix⟩ := decode_encode_quant s' s'' hw hh
  rw [hu] at hu'
  cases hu'
  rw [hv] at hv'
  cases hv'
  refine ⟨hvdone, hwidth, hheight, fun x y => ?_⟩
  cases hp : t.img.getPixel x y with
  | none => rwa [Raster.getPixel_eq_none, hwidth, hheight, ← Raster.getPixel_eq_none]
  | some p => rw [hpix x y p hp, quant_of_decodedPixel (decodePass_imgInv ht x y p hp)]

end Sys2Proof.Machine
end

section
/-! SUPPORT. The meaning of each token: what the two drawing tokens share, then the statements about the tokens and about the step
that runs them, settled. -/

namespace Sys2Proof.Machine

/-! ### The drawing tokens -/

/-- A token with pixels to draw below the image raises for its row (R105). -/
theorem drawToken_below {ps : List Pixel} (hps : ps ≠ []) (k : Nat) {s : State} (hy : s.dec.h.toNat ≤ s.dec.y) :
    drawToken k (.ok ps) s = .next (raiseDec .outOfBoundsPixel s) := by
  simp [drawToken, drawAll_below hps hy, settle]

/-- The state past a token of `k` bytes that drew `n` pixels and left the raster `img` (R15, R105). -/
def afterDraw (k n : Nat) (img : Raster) (s : State) : State :=
  { s with
    dec := { s.dec with
      x := (s.dec.x + n) % s.dec.w.toNat
      off := s.dec.off + k
      status := decStatusAt (s.dec.off + k) s.ib.len }
    img := img }

/-- A token with pixels to draw inside the image draws them and passes on (R110, R112). -/
theorem drawToken_inside {ps : List Pixel} (hps : ps ≠ []) (k : Nat) {s : State} (hy : s.dec.y < s.dec.h.toNat)
    (hx : s.dec.x < s.dec.w.toNat) (hw : s.img.width = s.dec.w.toNat) (hh : s.img.height = s.dec.h.toNat) :
    ∃ u, drawToken k (.ok ps) s = .next (afterDraw k ps.length u.img s) ∧ Drawn ps s u := by
  obtain ⟨u, hu⟩ := drawAll_exists ps hx hy hw hh
  have hd := drawAll_ok hu
  have hnext : retire k u = afterDraw k ps.length u.img s := by
    rw [hd.frame, hd.x_eq hps]
    rfl
  exact ⟨u, by simp [drawToken, hu, settle, hnext], hd⟩

/-- A place the run does not land on is as it was (R117). -/
theorem Drawn.unchanged {ps : List Pixel} {s u : State} (h : Drawn ps s u)
    (hx : s.dec.x < s.dec.w.toNat) {c r : Nat}
    (hmiss : r = s.dec.y → ∀ i < ps.length, (s.dec.x + i) % s.dec.w.toNat ≠ c) :
    u.img.getPixel c r = s.img.getPixel c r := by
  rw [h.pixels]
  split
  case isTrue hr => rw [drawnAt_eq_none hx (hmiss hr), Option.none_or]
  case isFalse => rfl

/-- The last pixel of the run to land on a place stands there (R118). -/
theorem Drawn.last {ps : List Pixel} {s u : State} (h : Drawn ps s u)
    (hx : s.dec.x < s.dec.w.toNat) {i : Nat} (hi : i < ps.length)
    (hlast : ∀ j, i < j → j < ps.length → (s.dec.x + j) % s.dec.w.toNat ≠ (s.dec.x + i) % s.dec.w.toNat) :
    u.img.getPixel ((s.dec.x + i) % s.dec.w.toNat) s.dec.y = some ps[i] := by
  rw [h.pixels, if_pos rfl, drawnAt_last hx hi hlast, Option.some_or]

/-- Of a run of one pixel, that pixel stands wherever the run landed (R112). -/
theorem Drawn.replicate {n : Nat} {p : Pixel} {s u : State} (h : Drawn (List.replicate n p) s u)
    (hx : s.dec.x < s.dec.w.toNat) {i : Nat} (hi : i < n) :
    u.img.getPixel ((s.dec.x + i) % s.dec.w.toNat) s.dec.y = some p := by
  obtain ⟨q, hq⟩ := drawnAt_hit (ps := List.replicate n p) hx (i := i) (by simpa using hi)
  have hqp : q = p := (List.mem_replicate.1 (drawnAt_mem hq)).2
  rw [h.pixels, if_pos rfl, hq, hqp, Option.some_or]

/-! ### The dispatcher's arms for them -/

theorem exec_pixelStream (n : Nat) (s : State) :
    exec (.pixelStream n) s = drawToken (1 + 2 * n) (streamPixels n s) s := rfl

theorem exec_repeatRun (n : Nat) (s : State) : exec (.repeatRun n) s = drawToken 3 (repeatPixels n s) s := rfl

theorem streamPixels_short {n : Nat} {s : State} (h : s.ib.len - (s.dec.off + 1) < 2 * n) :
    streamPixels n s = .error (.raises .truncatedInput) := by
  rcases streamPixels_cases n s with ⟨_, hs⟩ | ⟨hle, _⟩
  · exact hs
  · omega

theorem streamPixels_complete {n : Nat} {s : State} (h : 2 * n ≤ s.ib.len - (s.dec.off + 1)) :
    ∃ ws, colorWords s.ib (s.dec.off + 1) n = some ws ∧ streamPixels n s = .ok (ws.map unpack555) := by
  rcases streamPixels_cases n s with ⟨hlt, _⟩ | ⟨_, hs⟩
  · omega
  · exact hs

theorem repeatPixels_short (n : Nat) {s : State} (h : s.ib.len - (s.dec.off + 1) < 2) :
    repeatPixels n s = .error (.raises .truncatedInput) := by
  rcases repeatPixels_cases n s with ⟨_, hs⟩ | ⟨hle, _⟩
  · exact hs
  · omega

theorem repeatPixels_complete (n : Nat) {s : State} (h : 2 ≤ s.ib.len - (s.dec.off + 1)) :
    ∃ w, s.ib.read16 (s.dec.off + 1) = some w ∧ repeatPixels n s = .ok (List.replicate n (unpack555 w)) := by
  rcases repeatPixels_cases n s with ⟨hlt, _⟩ | ⟨_, hs⟩
  · omega
  · exact hs

/-! ### The statements -/

/-- Settles O13: the payload is short or complete, and complete it draws below the image or inside it. -/
theorem pixelStreamMeaning : Obligations.PixelStreamMeaning := by
  intro n s hn
  rw [exec_pixelStream]
  refine ⟨fun hshort => ?_, fun hfull hy => ?_, fun hfull hy hx hw hh => ?_⟩
  · rw [streamPixels_short hshort]
    rfl
  all_goals
    obtain ⟨ws, hws, hs⟩ := streamPixels_complete hfull
    have hlen : (ws.map unpack555).length = n := by rw [List.length_map, colorWords_length hws]
    have hne : ws.map unpack555 ≠ [] := List.ne_nil_of_length_pos (by rw [hlen]; exact hn.1)
    rw [hs]
  · rw [drawToken_below hne _ hy]
    rfl
  · obtain ⟨u, hnext, hdrawn⟩ := drawToken_inside hne (1 + 2 * n) hy hx hw hh
    rw [hlen] at hnext
    refine ⟨u.img, hnext, hdrawn.width, hdrawn.height, fun i hi hlast => ?_, fun c r hmiss => ?_⟩
    · have hiw : i < ws.length := by rwa [colorWords_length hws]
      refine ⟨ws[i], colorWords_getElem hws hiw, ?_⟩
      rw [hdrawn.last hx (by rwa [hlen]) (by rwa [hlen]), List.getElem_map]
    · exact hdrawn.unchanged hx (by rwa [hlen])

/-- Settles O14, as O13 with one word for the whole run. -/
theorem repeatMeaning : Obligations.RepeatMeaning := by
  intro n s hn
  rw [exec_repeatRun]
  refine ⟨fun hshort => ?_, fun hfull hy => ?_, fun hfull hy hx hw hh => ?_⟩
  · rw [repeatPixels_short n hshort]
    rfl
  all_goals
    obtain ⟨w, hread, hs⟩ := repeatPixels_complete n hfull
    have hne : List.replicate n (unpack555 w) ≠ [] := by simpa using Nat.ne_of_gt hn.1
    rw [hs]
  · rw [drawToken_below hne _ hy]
    rfl
  · obtain ⟨u, hnext, hdrawn⟩ := drawToken_inside hne 3 hy hx hw hh
    rw [List.length_replicate] at hnext
    refine ⟨w, u.img, hread, hnext, hdrawn.width, hdrawn.height, fun i hi => hdrawn.replicate hx hi, fun c r hmiss => ?_⟩
    exact hdrawn.unchanged hx (by rwa [List.length_replicate])

/-- Settles O15: the single advances are one sum (`advXTimes_x`), and they write the column alone (`advXTimes_eq`). -/
theorem transparentMeaning : Obligations.TransparentMeaning := by
  intro n s hn
  obtain ⟨m, rfl⟩ : ∃ m, n = m + 1 := ⟨n - 1, (Nat.sub_add_cancel hn.1).symm⟩
  change Host.Outcome.next (retire 1 (advXTimes (m + 1) s)) = _
  rw [advXTimes_eq, advXTimes_x]
  rfl

/-- Settles O16: `NewLine` by its definition; of the others a drawing token keeps the row by its frame, an error and an advance by
theirs. -/
theorem newLineMeaning : Obligations.NewLineMeaning := by
  refine ⟨fun f s => rfl, fun i s t h hnl => ?_⟩
  rcases exec_cases h with ⟨ps, u, hdraw, _, _, _, rfl⟩ | ⟨e, rfl, _⟩ | ⟨n, rfl, rfl⟩ | ⟨f, rfl, _⟩
  · rw [(drawAll_ok hdraw).frame]
    rfl
  · rfl
  · rw [advXTimes_eq]
    rfl
  · cases hnl

/-- Settles O19: a token that passes leaves `Running` or `Done`, so a faulted state is the one raised in. -/
theorem faultingTokenChangesNothingElse : Obligations.FaultingTokenChangesNothingElse := by
  intro i s t h hfault
  rcases exec_cases h with ⟨ps, u, _, _, _, _, rfl⟩ | ⟨e, rfl, he⟩ | ⟨n, _, rfl⟩ | ⟨f, _, rfl⟩
  · exact absurd hfault (decStatusAt_ne_faulted _ _)
  · exact ⟨rfl, he⟩
  · exact absurd hfault (decStatusAt_ne_faulted _ _)
  · exact absurd hfault (decStatusAt_ne_faulted _ _)

/-- Settles O33: after the header nothing is left, so the start state is the end, its raster blank. -/
theorem emptyStreamIsBlank : Obligations.EmptyStreamIsBlank := by
  intro w h s hw hh
  have hstart := startDecode_headerWrite_append hw hh [] s
  rw [List.append_nil] at hstart
  have hdone : (startDecode (headerWrite w h) s).dec.status = .done := by rw [hstart]; rfl
  refine ⟨_, runDec_stop (by simp [hdone]) _, hdone, ?_⟩
  rw [hstart, decStart_img]
  exact ⟨rfl, rfl, fun x hx y hy => newBlank_getPixel hx hy⟩

/-- Settles O11: the decoder's step is `exec` of what the byte decodes to, and `step` is a step of a running unit. -/
theorem stepRunsDecodedInstruction : Obligations.StepRunsDecodedInstruction := by
  intro s c hhost hr hc
  have hexec : decStep s = exec (decode c) s := by rw [decStep, fetch, hc]
  refine ⟨wellFormed_decode c, fun he => ?_, fun _ => ?_⟩
  · rcases step_units hhost with ⟨_, hs⟩ | ⟨he', _⟩ | ⟨hr', _⟩
    · rw [hs, hexec]
    · exact absurd he' he
    · exact absurd hr hr'
  · rcases step_units hhost with ⟨_, hs⟩ | ⟨_, hs⟩ | ⟨hr', _⟩
    · exact .inl (hs.trans hexec)
    · exact .inr hs
    · exact absurd hr hr'

/-- Settles O17: each invalid opcode's arm raises its own error, which latches these three registers. -/
theorem invalidOpcodesMeaning : Obligations.InvalidOpcodesMeaning := fun _ _ => ⟨rfl, rfl, rfl, rfl⟩

end Sys2Proof.Machine
end

section
/-! SUPPORT. The token of a run: its bytes, and that its words have bit 15 clear; then the statements about the flush, the
encoder's step and the end of a pass, settled. -/

namespace Sys2Proof.Machine

/-! ### The bytes of a run's token -/

/-- A control byte as a number: 32 bytes to each opcode, and the run length less 1 inside them (R61, R64). -/
theorem controlByte_fieldOf {k n : Nat} (hk : k < 8) (hn : runLengthOk n) :
    controlByte (BitVec.ofNat 3 k) (fieldOf n) = BitVec.ofNat 8 (32 * k + (n - 1)) := by
  obtain ⟨h1, h32⟩ := hn
  have hc : (BitVec.ofNat 8 (32 * k + (n - 1))).toNat = 32 * k + (n - 1) := by
    rw [BitVec.toNat_ofNat]
    exact Nat.mod_eq_of_lt (by simp only [Config.maxRun] at h32; omega)
  simp only [Config.maxRun] at h32
  obtain ⟨hop, hfield, -⟩ := fields_of_range (BitVec.ofNat 8 (32 * k + (n - 1))) k (by omega) (by omega)
  rw [← controlByte_opcodeOf_lenField (BitVec.ofNat 8 (32 * k + (n - 1))), hop, hfield, hc, Nat.add_sub_cancel_left,
    fieldOf, Config.lenBias]

/-- R139: one byte. -/
theorem encodeToken_transparent {n : Nat} (hn : runLengthOk n) :
    encodeToken ⟨.transparent n, []⟩ = [BitVec.ofNat 8 (0x20 + (n - 1))] :=
  congrArg (· :: []) (controlByte_fieldOf (k := 1) (by decide) hn)

/-- R140: three bytes. -/
theorem encodeToken_repeatRun {n : Nat} (hn : runLengthOk n) (w : Word) :
    encodeToken ⟨.repeatRun n, [w]⟩ = [BitVec.ofNat 8 (0x40 + (n - 1)), lo8 w, hi8 w] :=
  congrArg (· :: [lo8 w, hi8 w]) (controlByte_fieldOf (k := 2) (by decide) hn)

/-- R141: the control byte and every word. -/
theorem encodeToken_pixelStream {n : Nat} (hn : runLengthOk n) (ws : List Word) :
    encodeToken ⟨.pixelStream n, ws⟩ = BitVec.ofNat 8 (n - 1) :: ws.flatMap fun v => [lo8 v, hi8 v] := by
  have hc := controlByte_fieldOf (k := 0) (by decide) hn
  rw [Nat.mul_zero, Nat.zero_add] at hc
  exact congrArg (· :: ws.flatMap wordBytes) hc

/-- `AllEqual` compares every word with the first (R138). -/
theorem allEqual_iff_of_head? {ws : List Word} {w : Word} (h : ws.head? = some w) :
    allEqual ws = true ↔ ∀ v ∈ ws, v = w := by
  cases ws with
  | nil => cases h
  | cons v vs => cases h; simp [allEqual]

/-! ### The words of a run's token -/

/-- What holds of the words of an opaque run holds of the token's payload; a transparent run has none (R139 to R141). -/
theorem forall_mem_payload_runToken {P : Word → Prop} {single : SingleOpaque} {e : EncUnit} (hkind : e.runKind ≠ .none)
    (hwords : e.runKind = .opaqueRun → ∀ w ∈ runWords e, P w) : ∀ w ∈ (runToken single e).payload, P w := by
  have hopaque : e.runKind ≠ .transparentRun → e.runKind = .opaqueRun := by cases h : e.runKind <;> simp_all
  rcases runToken_cases single e with ⟨_, h⟩ | ⟨hk, _, _, h⟩ | ⟨hk, _, h⟩ <;> rw [h]
  · simp
  · exact fun w hw => hwords (hopaque hk) w (List.mem_of_mem_take hw)
  · exact hwords (hopaque hk)

/-- The words of the run a pixel has joined have bit 15 clear: those that were there, and the one packed (R91, R149 c). -/
theorem Joined.words_msb {p : Pixel} {s u : State} (hj : Joined p s u) (hpass : EncPass s) :
    u.enc.runKind = .opaqueRun → ∀ w ∈ runWords u.enc, w.msb = false := by
  intro hk w hw
  rw [hj.kind] at hk
  rw [hj.words hk, List.mem_append, List.mem_singleton] at hw
  rcases hw with hold | rfl
  · by_cases hflush : flushesBefore (classOf p) s.enc
    · rw [if_pos hflush] at hold
      cases hold
    · rw [if_neg hflush] at hold
      have hpos : 0 < s.enc.runLen := Nat.lt_of_lt_of_le (List.length_pos_of_mem hold) (runWords_length_le s.enc)
      have hkind : s.enc.runKind = .opaqueRun := by
        by_contra hne
        exact hflush (.inr ⟨hpos, hk ▸ hne⟩)
      exact hpass.words hkind w hold
  · exact pack_msb p

/-- Such a run's token has clear words too. -/
theorem Joined.payload_msb {p : Pixel} {s u : State} (hj : Joined p s u) (hpass : EncPass s) (single : SingleOpaque) :
    ∀ w ∈ (runToken single u.enc).payload, w.msb = false :=
  forall_mem_payload_runToken (by rw [hj.kind]; exact classOf_ne_none p) (hj.words_msb hpass)

/-- Between two steps the accumulated run's token has clear words (R149 c). -/
theorem EncPass.payload_msb {s : State} (hpass : EncPass s) (h0 : 0 < s.enc.runLen) (single : SingleOpaque) :
    ∀ w ∈ (runToken single s.enc).payload, w.msb = false :=
  forall_mem_payload_runToken (fun hk => Nat.ne_of_gt h0 (hpass.kind_none.1 hk)) hpass.words

/-! ### The flush -/

/-- Settles O28: the three tokens of `runToken_cases`, each with its bytes. -/
theorem flushWritesTheRun : Obligations.FlushWritesTheRun := by
  intro s h1 h32
  have hn : runLengthOk s.enc.runLen := ⟨h1, h32⟩
  refine ⟨encodeToken (runToken s.encSingleOpaque s.enc), by rw [flush_ob, Buffer.bytes_pushAll], flush_enc s, rfl, ?_⟩
  rcases runToken_cases s.encSingleOpaque s.enc with ⟨hk, htok⟩ | ⟨hk, hall, hlong, htok⟩ | ⟨hk, hnot, htok⟩ <;> rw [htok]
  · exact ⟨fun _ => encodeToken_transparent hn, fun hne => absurd hk hne⟩
  · refine ⟨fun hk' => absurd hk' hk, fun _ w hw => ⟨fun _ => ?_, fun hnot => ?_⟩⟩
    · rw [List.take_one, hw]
      exact encodeToken_repeatRun hn w
    · exact absurd ⟨(allEqual_iff_of_head? hw).1 hall, hlong⟩ hnot
  · refine ⟨fun hk' => absurd hk' hk, fun _ w hw => ⟨fun hall => ?_, fun _ => encodeToken_pixelStream hn _⟩⟩
    rw [allEqual_iff_of_head? hw] at hnot
    exact absurd hall hnot

/-- Settles O31: `runToken_wf` and `EncPass.payload_msb`. -/
theorem flushedRunIsWellFormed : Obligations.FlushedRunIsWellFormed :=
  fun _ hpass h0 => ⟨runToken_wf h0 hpass.run_max, hpass.payload_msb h0 _⟩

/-! ### The step and the pass -/

/-- A pixel writes neither the dimensions nor the error of the pass (R18, R24). -/
theorem takePixel_kept (p : Pixel) {s : State} (hmax : s.enc.runLen ≤ 32) :
    (takePixel p s).enc.w = s.enc.w ∧ (takePixel p s).enc.h = s.enc.h ∧
      (takePixel p s).enc.errCause = s.enc.errCause := by
  obtain ⟨u, hj, ⟨_, hnext⟩ | ⟨_, hnext⟩⟩ := takePixel_cases p s hmax <;> rw [hnext]
  · exact ⟨hj.w, hj.h, hj.cause⟩
  · exact ⟨hj.w, hj.h, hj.cause⟩

/-- Settles O29: the pixel joins the run (`Joined`), then the column or the row moves on (`takePixel_cases`). -/
theorem encoderStepTakesOnePixel : Obligations.EncoderStepTakesOnePixel := by
  intro s hpass hr
  obtain ⟨p, hp, hstep⟩ := hpass.step_next hr
  obtain ⟨hw, hh, hcause⟩ := takePixel_kept p hpass.run_max
  refine ⟨p, takePixel p s, hp, hstep, takePixel_frame p s, hw, hh, hcause, ?_⟩
  have hx := hpass.x_lt
  obtain ⟨u, hj, hnext⟩ := takePixel_cases p s hpass.run_max
  have hwords : classOf p = .opaqueRun → runWords u.enc =
      (if flushesBefore (classOf p) s.enc then [] else runWords s.enc) ++
        (if classOf p = .opaqueRun then [pack555 p] else []) :=
    fun hk => by rw [if_pos hk, hj.words hk]
  rcases hnext with ⟨hcol, hnext⟩ | ⟨hcol, hnext⟩ <;> rw [hnext]
  · have hstatus : encStatusAt s.enc.y s.enc.h = .running := by rw [← hpass.status, hr]
    refine ⟨fun _ => ⟨rfl, hj.y, ⟨hj.kind, hj.len, hwords⟩, hstatus, ?_⟩, fun hlast => by omega⟩
    rw [← Buffer.bytes_pushAll, ← hj.ob]
  · refine ⟨fun hlt => by omega, fun _ => ⟨rfl, rfl, rfl, rfl, rfl, u.enc, ⟨hj.kind, hj.len, hwords⟩, ?_⟩⟩
    rw [← Buffer.bytes_pushAll, ← hj.ob, List.append_assoc, ← Buffer.bytes_pushAll]

/-- Before its last pixel a pass runs: `k` steps have moved the scan `k` pixels on (R130, R165). -/
theorem startEncode_running {r : Raster} (s : State) (hw : encDimOk r.width) (hh : encDimOk r.height) {k : Nat}
    (hk : k < r.width * r.height) : ∃ u, runEnc k (startEncode r s) = .next u ∧ u.enc.status = .running := by
  have hpass : EncPass (encStart { s with src := r }) := EncPass.start hw hh
  obtain ⟨u, hu, hupass, hwidth, hheight, hscan⟩ :=
    runEnc_scan (k := k) hpass (by simpa [Nat.mul_comm] using Nat.le_of_lt hk)
  have hrow : u.enc.y ≠ u.enc.h := fun hend => by
    have hall : r.height * r.width + u.enc.x = k := by simpa [hend, hwidth, hheight] using hscan
    rw [Nat.mul_comm] at hk
    omega
  exact ⟨u, by rw [startEncode_of_encDimOk s hw hh, hu], by rw [hupass.status, encStatusAt, if_neg hrow]⟩

/-- Settles O35: an accepted raster is scanned pixel by pixel (`encodePass_ends`, `startEncode_running`), and a rejected one
leaves no step to take. -/
theorem encodePassEnds : Obligations.EncodePassEnds := by
  intro r s
  refine ⟨fun hw1 hwmax hh1 hhmax => ?_, fun hbad => ?_⟩
  · have hw : encDimOk r.width := ⟨Nat.ne_of_gt hw1, hwmax⟩
    have hh : encDimOk r.height := ⟨Nat.ne_of_gt hh1, hhmax⟩
    obtain ⟨t, ht, hpass, hdone, _⟩ := encodePass_ends s hw hh
    exact ⟨⟨t, ht, hdone, hpass.cause⟩, fun k hk => startEncode_running s hw hh hk⟩
  · rcases startEncode_cases r s with ⟨⟨⟨hw0, hwmax⟩, hh0, hhmax⟩, _⟩ | ⟨_, hs⟩
    · simp only [Config.maxDim] at hwmax hhmax
      omega
    · have hfault : (startEncode r s).enc.status = .faulted := by rw [hs]; rfl
      exact ⟨_, runEnc_stop (by simp [hfault]) _, rfl, hfault, by rw [hs]; rfl, by rw [hs]; rfl⟩

end Sys2Proof.Machine
end

section
/-! SUPPORT. The shape of the encoder's output: the tokens of finished rows and of the row in progress, kept by every pixel. -/

namespace Sys2Proof.Machine

/-! ### Rows of tokens -/

/-- A run moves on in its row (R149 b). -/
theorem exactRows_run {w rows col : Nat} {t : Token} {ts : List Token} (hwf : t.wellFormed)
    (hnl : isNewLine t.instr = false) (h : exactRows w rows (col + runOf t.instr) ts) : exactRows w rows col (t :: ts) :=
  ⟨hwf, by rwa [if_neg (by simp [hnl])]⟩

/-- `NewLine` ends a full row (R142, R149 d). -/
theorem exactRows_newLine {w rows : Nat} {ts : List Token} (h : exactRows w rows 0 ts) :
    exactRows w (rows + 1) w (newLineToken :: ts) :=
  ⟨⟨rfl, trivial, rfl⟩, encodeToken_newLineToken, rfl, Nat.le_add_left 1 rows, h⟩

/-- What the first token of a stream can be: the `NewLine` of a full row, or a run of at least one pixel. -/
theorem exactRows_cons {w rows col : Nat} {t : Token} {ts : List Token} (h : exactRows w rows col (t :: ts)) :
    (encodeToken t = [0x80] ∧ exactRows w (rows - 1) 0 ts) ∨
      (1 ≤ runOf t.instr ∧ exactRows w rows (col + runOf t.instr) ts) := by
  obtain ⟨⟨hvalid, hwf, _⟩, hrest⟩ := h
  by_cases hnl : isNewLine t.instr = true
  · rw [if_pos hnl] at hrest
    obtain ⟨hbytes, _, _, hts⟩ := hrest
    exact .inl ⟨hbytes, hts⟩
  · rw [if_neg hnl] at hrest
    refine .inr ⟨?_, hrest⟩
    cases hi : t.instr <;> rw [hi] at hnl hvalid hwf
    case pixelStream | transparent | repeatRun => exact hwf.1
    case newLine => exact absurd rfl hnl
    all_goals cases hvalid

/-- Rows that are all ended leave `0x80` as the last byte (R149 e). -/
theorem exactRows_getLast? {w rows col : Nat} {ts : List Token} (h : exactRows w rows col ts) (hne : ts ≠ []) :
    (encodeTokens ts).getLast? = some 0x80 := by
  induction ts generalizing rows col with
  | nil => exact absurd rfl hne
  | cons t ts ih =>
    rw [encodeTokens, List.flatMap_cons, List.getLast?_append]
    by_cases hts : ts = []
    · subst hts
      rcases exactRows_cons h with ⟨hbytes, _⟩ | ⟨hrun, hend⟩
      · rw [hbytes]
        rfl
      · have hcol : col + runOf t.instr = 0 := hend.2
        omega
    · obtain ⟨rows', col', hrest⟩ : ∃ rows' col', exactRows w rows' col' ts := by
        rcases exactRows_cons h with ⟨_, hrest⟩ | ⟨_, hrest⟩ <;> exact ⟨_, _, hrest⟩
      have hlast := ih hrest hts
      rw [encodeTokens] at hlast
      rw [hlast, Option.some_or]

/-! ### What was emitted, up to a place -/

/-- The bytes an encoder of a `w` by `h` raster has emitted when it has emitted all up to column `col` of row `row`: the header,
then tokens with clear words, which every stream from `(col, row)` to the end completes to `h` exact rows. -/
def RowsEmitted (w h col row : Nat) (bytes : List Byte) : Prop :=
  ∃ ts : List Token,
    bytes = headerWrite (BitVec.ofNat 16 w) (BitVec.ofNat 16 h) ++ encodeTokens ts ∧
    (∀ tok ∈ ts, ∀ v ∈ tok.payload, v.msb = false) ∧
    ∀ rest, exactRows w (h - row) col rest → exactRows w h 0 (ts ++ rest)

theorem RowsEmitted.header (w h : Nat) :
    RowsEmitted w h 0 0 (headerWrite (BitVec.ofNat 16 w) (BitVec.ofNat 16 h)) :=
  ⟨[], (List.append_nil _).symm, by simp, fun _ hrest => hrest⟩

/-- One more token. -/
theorem RowsEmitted.token {w h col row col' row' : Nat} {bytes : List Byte} {tok : Token}
    (he : RowsEmitted w h col row bytes) (hclear : ∀ v ∈ tok.payload, v.msb = false)
    (hnext : ∀ rest, exactRows w (h - row') col' rest → exactRows w (h - row) col (tok :: rest)) :
    RowsEmitted w h col' row' (bytes ++ encodeToken tok) := by
  obtain ⟨ts, rfl, hts, hrows⟩ := he
  refine ⟨ts ++ [tok], ?_, ?_, fun rest hrest => ?_⟩
  · simp [encodeTokens, List.append_assoc]
  · rw [List.forall_mem_append, List.forall_mem_singleton]
    exact ⟨hts, hclear⟩
  · rw [List.append_assoc]
    exact hrows _ (hnext rest hrest)

/-- The token of a run takes the place past it (R149 b). -/
theorem RowsEmitted.run {w h col row : Nat} {bytes : List Byte} {single : SingleOpaque} {e : EncUnit}
    (he : RowsEmitted w h col row bytes) (h0 : 0 < e.runLen) (hmax : e.runLen ≤ 32)
    (hclear : ∀ v ∈ (runToken single e).payload, v.msb = false) :
    RowsEmitted w h (col + e.runLen) row (bytes ++ encodeToken (runToken single e)) := by
  obtain ⟨hrun, hnl, _⟩ := runToken_facts (single := single) hmax h0
  exact he.token hclear fun rest hrest => exactRows_run (runToken_wf h0 hmax) hnl (by rwa [hrun])

/-- `NewLine` takes the place from the end of a row to the start of the next (R142). -/
theorem RowsEmitted.newLine {w h row : Nat} {bytes : List Byte} (he : RowsEmitted w h w row bytes) (hrow : row < h) :
    RowsEmitted w h 0 (row + 1) (bytes ++ [0x80]) := by
  rw [← encodeToken_newLineToken]
  refine he.token (by simp [newLineToken]) fun rest hrest => ?_
  rw [show h - row = h - (row + 1) + 1 by omega]
  exact exactRows_newLine hrest

/-- After the last row the tokens are the exact rows, and the last byte is `0x80` (R149). -/
theorem RowsEmitted.ended {w h : Nat} {bytes : List Byte} (he : RowsEmitted w h 0 h bytes) (hh : h ≠ 0) :
    ∃ ts : List Token,
      bytes = headerWrite (BitVec.ofNat 16 w) (BitVec.ofNat 16 h) ++ encodeTokens ts ∧ exactRows w h 0 ts ∧
      (∀ tok ∈ ts, ∀ v ∈ tok.payload, v.msb = false) ∧ bytes.getLast? = some 0x80 := by
  obtain ⟨ts, rfl, hclear, hrows⟩ := he
  have hexact : exactRows w h 0 ts := by
    simpa using hrows [] ⟨Nat.sub_self h, rfl⟩
  have hne : ts ≠ [] := by
    rintro rfl
    exact hh hexact.1
  refine ⟨ts, rfl, hexact, hclear, ?_⟩
  rw [List.getLast?_append, exactRows_getLast? hexact hne, Option.some_or]

/-! ### Every pixel keeps the shape -/

/-- Where the run is flushed before the pixel joins, its token is emitted; else the run goes on from where it began (R134,
R135). -/
theorem Joined.rowsEmitted {p : Pixel} {s u : State} (hj : Joined p s u) (hpass : EncPass s) {w h y : Nat}
    (he : RowsEmitted w h (s.enc.x - s.enc.runLen) y s.ob.bytes) :
    RowsEmitted w h (s.enc.x + 1 - u.enc.runLen) y u.ob.bytes := by
  have hle := hpass.run_le
  rw [hj.ob, hj.len, Buffer.bytes_pushAll]
  by_cases hflush : flushesBefore (classOf p) s.enc
  · have h0 : 0 < s.enc.runLen := by omega
    have hrun := he.run h0 hpass.run_max (hpass.payload_msb h0 s.encSingleOpaque)
    rw [Nat.sub_add_cancel hle] at hrun
    rwa [if_pos hflush, if_pos hflush]
  · rw [if_neg hflush, if_neg hflush, List.append_nil, Nat.add_sub_add_right]
    exact he

/-- What an encode pass of a `w` by `h` raster keeps: everything up to the accumulated run is emitted. -/
structure Shaped (w h : Nat) (s : State) : Prop where
  width : s.enc.w = w
  height : s.enc.h = h
  emitted : RowsEmitted w h (s.enc.x - s.enc.runLen) s.enc.y s.ob.bytes

theorem Shaped.start (s : State) : Shaped s.src.width s.src.height (encStart s) where
  width := rfl
  height := rfl
  emitted := by
    rw [encStart_ob, Buffer.bytes_ofBytes]
    exact RowsEmitted.header _ _

/-- Every pixel keeps it; on the last column the run and `NewLine` end the row (R136, R143). -/
theorem Shaped.takePixel {w h : Nat} {s : State} {p : Pixel} (hs : Shaped w h s) (hpass : EncPass s)
    (hr : s.enc.status = .running) : Shaped w h (takePixel p s) := by
  have hrow := hpass.row_lt hr
  have hle := hpass.run_le
  have hlt := hpass.x_lt
  obtain ⟨hwidth, hheight, _⟩ := takePixel_kept p hpass.run_max
  refine ⟨hwidth.trans hs.width, hheight.trans hs.height, ?_⟩
  obtain ⟨u, hj, ⟨hcol, hnext⟩ | ⟨hcol, hnext⟩⟩ := takePixel_cases p s hpass.run_max
  all_goals
    have hjoined := hj.rowsEmitted hpass hs.emitted
    rw [hnext]
  · show RowsEmitted w h (s.enc.x + 1 - u.enc.runLen) u.enc.y u.ob.bytes
    rwa [hj.y]
  · show RowsEmitted w h 0 (s.enc.y + 1) (u.ob.pushAll _).bytes
    have hpos : 0 < u.enc.runLen := by rw [hj.len]; split <;> omega
    have hfits : u.enc.runLen ≤ s.enc.x + 1 := by rw [hj.len]; split <;> omega
    have hrun := hjoined.run hpos hj.len_le (hj.payload_msb hpass s.encSingleOpaque)
    rw [Nat.sub_add_cancel hfits, show s.enc.x + 1 = w by rw [← hs.width]; omega] at hrun
    rw [Buffer.bytes_pushAll, ← List.append_assoc]
    exact hrun.newLine (hs.height ▸ hrow)

/-- Settles O36: the pass keeps `Shaped`, and it ends at the start of the row below the last. -/
theorem encoderOutputShape : Obligations.EncoderOutputShape := by
  intro r s t hw hh ht
  obtain ⟨t', ht', hpass, _, hx, hy⟩ := encodePass_ends s hw hh
  rw [ht] at ht'
  cases ht'
  rw [encodePass, startEncode_of_encDimOk s hw hh] at ht
  have hshaped : Shaped r.width r.height t :=
    (runEnc_induct (fun _ _ hpass hr _ hs => hs.takePixel hpass hr) (EncPass.start hw hh)
      (Shaped.start { s with src := r }) ht).2
  have hemitted := hshaped.emitted
  rw [hx, hy, Nat.zero_sub] at hemitted
  exact hemitted.ended hh.1

end Sys2Proof.Machine
end

section
/-! SUPPORT. What an encode pass depends on: of a raster, the class and the colour word of each pixel; of the state, the parameter
alone. -/

namespace Sys2Proof.Machine

/-! ### Passes in step -/

/-- A running pass that comes through `k + 1` steps comes through the first of them. -/
theorem runEnc_succ_eq_next {k : Nat} {s t : State} (hr : s.enc.status = .running) (h : runEnc (k + 1) s = .next t) :
    ∃ u, encStep s = .next u ∧ runEnc k u = .next t := by
  cases hs : encStep s with
  | next u => exact ⟨u, rfl, by rwa [runEnc_step hr hs] at h⟩
  | fault f => simp [runEnc, hr, hs] at h
  | refused r => simp [runEnc, hr, hs] at h

/-- A relation that fixes the status and that every step keeps, a pass keeps. -/
theorem runEnc_simulates {R : State → State → Prop} {k : Nat} {s s' t : State}
    (hstatus : ∀ s s', R s s' → s'.enc.status = s.enc.status)
    (hstep : ∀ s s' t, s.enc.status = .running → R s s' → encStep s = .next t → ∃ t', encStep s' = .next t' ∧ R t t')
    (h : R s s') (ht : runEnc k s = .next t) : ∃ t', runEnc k s' = .next t' ∧ R t t' := by
  induction k generalizing s s' with
  | zero => cases ht; exact ⟨s', rfl, h⟩
  | succ k ih =>
    by_cases hr : s.enc.status = .running
    · obtain ⟨u, hu, hrest⟩ := runEnc_succ_eq_next hr ht
      obtain ⟨u', hu', hnext⟩ := hstep s s' u hr h hu
      rw [runEnc_step ((hstatus s s' h).trans hr) hu']
      exact ih hnext hrest
    · have hr' : s'.enc.status ≠ .running := by rwa [hstatus s s' h]
      rw [runEnc_stop hr] at ht
      cases ht
      exact ⟨s', runEnc_stop hr' _, h⟩

/-! ### The pixels of the raster -/

/-- Two pixels with one class and, if they are opaque, one colour word (R133, R138, R147). -/
abbrev SamePixel (p q : Pixel) : Prop := (p.a = 0 ↔ q.a = 0) ∧ (p.a ≠ 0 → pack555 p = pack555 q)

/-- The encoder takes in the one as it takes in the other (R147). -/
theorem takePixel_congr {p q : Pixel} (h : SamePixel p q) (s : State) : takePixel p s = takePixel q s := by
  obtain ⟨halpha, hword⟩ := h
  have hclass : classOf p = classOf q := by simp only [classOf, halpha]
  have hadd : ∀ u, addPixel (classOf p) p u = addPixel (classOf p) q u := fun u => by
    rcases classOf_cases p with ⟨_, hk⟩ | ⟨ha, hk⟩ <;> rw [hk]
    · rfl
    · rw [addPixel, addPixel, hword ha]
  rw [takePixel, takePixel, hadd, hclass]

/-- `s` with another raster to encode. -/
def withSource (r : Raster) (s : State) : State := { s with src := r }

theorem flushBefore_withSource (k : RunKind) (r : Raster) (s : State) :
    flushBefore k (withSource r s) = withSource r (flushBefore k s) := by
  rw [flushBefore, flushBefore, apply_ite (withSource r), apply_ite (withSource r)]
  rfl

theorem advanceScan_withSource (r : Raster) (s : State) :
    advanceScan (withSource r s) = withSource r (advanceScan s) := by
  rw [advanceScan, advanceScan, apply_ite (withSource r)]
  rfl

/-- Once the pixel is fetched, the raster is neither read nor written. -/
theorem takePixel_withSource (p : Pixel) (r : Raster) (s : State) :
    takePixel p (withSource r s) = withSource r (takePixel p s) :=
  calc takePixel p (withSource r s)
    _ = settleEnc (advanceScan (withSource r (addPixel (classOf p) p (flushBefore (classOf p) s)))) := by
      rw [takePixel, flushBefore_withSource]
      rfl
    _ = withSource r (takePixel p s) := by
      rw [advanceScan_withSource]
      rfl

/-- The start of a pass reads the raster's dimensions alone (R130, R131). -/
theorem startEncode_withSource {r r' : Raster} (s : State) (hw : r.width = r'.width) (hh : r.height = r'.height) :
    startEncode r' s = withSource r' (startEncode r s) := by
  rw [startEncode, startEncode, apply_ite (withSource r')]
  simp only [encStart, encUndefined, raiseEnc, withSource, hw, hh]

/-- Two rasters of one size that the encoder cannot tell apart. -/
structure SameRaster (r r' : Raster) : Prop where
  width : r.width = r'.width
  height : r.height = r'.height
  pixels : ∀ x y p q, r.getPixel x y = some p → r'.getPixel x y = some q → SamePixel p q

/-- A step over the one raster is a step over the other. -/
theorem SameRaster.encStep {r r' : Raster} (h : SameRaster r r') {s t : State} (hsrc : s.src = r)
    (ht : encStep s = .next t) : Machine.encStep (withSource r' s) = .next (withSource r' t) ∧ t.src = r := by
  obtain ⟨_, hs⟩ | ⟨p, hp, hs⟩ := encStep_cases s <;> rw [hs] at ht <;> cases ht
  rw [hsrc] at hp
  obtain ⟨hx, hy⟩ := Raster.getPixel_some_lt hp
  obtain ⟨q, hq⟩ := Raster.getPixel_isSome (h.width ▸ hx) (h.height ▸ hy)
  refine ⟨?_, by rw [takePixel_frame]; exact hsrc⟩
  rw [takePixel_congr (h.pixels _ _ p q hp hq), ← takePixel_withSource]
  have hq' : (withSource r' s).src.getPixel (withSource r' s).enc.x (withSource r' s).enc.y = some q := hq
  rw [Machine.encStep, hq']

/-- A pass over the one raster is a pass over the other (R147). -/
theorem SameRaster.encodePass {r r' : Raster} (h : SameRaster r r') {s t : State} (ht : encodePass r s = .next t) :
    Machine.encodePass r' s = .next { t with src := r' } := by
  have hstart : (startEncode r s).src = r := by rw [startEncode_frame]
  obtain ⟨t', ht', rfl, _⟩ := runEnc_simulates (R := fun s s' => s' = withSource r' s ∧ s.src = r)
    (fun s s' hR => by rw [hR.1]; rfl)
    (fun s s' t _ hR hs => by
      obtain ⟨rfl, hsrc⟩ := hR
      obtain ⟨hnext, hkept⟩ := h.encStep hsrc hs
      exact ⟨_, hnext, rfl, hkept⟩)
    ⟨startEncode_withSource s h.width h.height, hstart⟩ ht
  rw [Machine.encodePass, ← h.width, ← h.height]
  exact ht'

/-- Settles O37: its premises are `SameRaster`. -/
theorem encoderReadsOnlyClassAndWord : Obligations.EncoderReadsOnlyClassAndWord :=
  fun _ _ _ _ hwidth hheight hpixels ht => SameRaster.encodePass ⟨hwidth, hheight, hpixels⟩ ht

/-! ### The state the pass starts in -/

/-- Two states alike in all that an encoder step reads: the entries of `ENC.RUN_BUF` are read for the words of an opaque run alone
(R22, log entry 7). -/
structure SameEnc (s t : State) : Prop where
  src : t.src = s.src
  ob : t.ob = s.ob
  single : t.encSingleOpaque = s.encSingleOpaque
  w : t.enc.w = s.enc.w
  h : t.enc.h = s.enc.h
  x : t.enc.x = s.enc.x
  y : t.enc.y = s.enc.y
  status : t.enc.status = s.enc.status
  kind : t.enc.runKind = s.enc.runKind
  len : t.enc.runLen = s.enc.runLen
  words : s.enc.runKind ≠ .transparentRun → runWords t.enc = runWords s.enc

theorem runWords_of_runLen_zero {e : EncUnit} (h : e.runLen = 0) : runWords e = [] := by
  rw [runWords, h, List.take_zero]

/-- Their runs become one token (R137). -/
theorem SameEnc.runToken {s t : State} (h : SameEnc s t) :
    runToken t.encSingleOpaque t.enc = Machine.runToken s.encSingleOpaque s.enc := by
  rw [Machine.runToken, Machine.runToken, h.kind, h.len, h.single]
  split
  · rfl
  · rename_i hk
    rw [h.words hk]

/-- One pixel joins both runs alike (R143). -/
theorem SameEnc.joined {p : Pixel} {s t u v : State} (h : SameEnc s t) (hu : Joined p s u) (hv : Joined p t v) :
    SameEnc u v := by
  have hflush : flushesBefore (classOf p) t.enc ↔ flushesBefore (classOf p) s.enc := by
    rw [flushesBefore, h.len, h.kind]
  constructor
  case src => rw [hu.frame, hv.frame]; exact h.src
  case single => rw [hu.frame, hv.frame]; exact h.single
  case ob => rw [hu.ob, hv.ob, h.ob, h.runToken]; simp only [hflush]
  case w => rw [hu.w, hv.w, h.w]
  case h => rw [hu.h, hv.h, h.h]
  case x => rw [hu.x, hv.x, h.x]
  case y => rw [hu.y, hv.y, h.y]
  case status => rw [hu.status, hv.status, h.status]
  case kind => rw [hu.kind, hv.kind]
  case len => simp only [hu.len, hv.len, h.len, hflush]
  case words =>
    intro hk
    rw [hu.kind] at hk
    have hopaque : classOf p = .opaqueRun := by
      rcases classOf_cases p with ⟨_, hc⟩ | ⟨_, hc⟩
      · exact absurd hc hk
      · exact hc
    rw [hu.words hopaque, hv.words hopaque]
    simp only [hflush]
    by_cases hf : flushesBefore (classOf p) s.enc
    · rw [if_pos hf, if_pos hf]
    · rw [if_neg hf, if_neg hf]
      by_cases h0 : s.enc.runLen = 0
      · rw [runWords_of_runLen_zero h0, runWords_of_runLen_zero (h.len.trans h0)]
      · rw [h.words fun hne => hf (.inr ⟨Nat.pos_of_ne_zero h0, by rw [hne]; exact hk.symm⟩)]

/-- One pixel takes both states alike to the next (R143). -/
theorem SameEnc.takePixel {s t : State} (h : SameEnc s t) (p : Pixel) (hmax : s.enc.runLen ≤ 32) :
    SameEnc (takePixel p s) (Machine.takePixel p t) := by
  obtain ⟨u, hu, hs⟩ := takePixel_cases p s hmax
  obtain ⟨v, hv, ht⟩ := takePixel_cases p t (by rw [h.len]; exact hmax)
  have hj := h.joined hu hv
  rw [h.x, h.w, h.y, h.h] at ht
  rcases hs with ⟨hcol, hs⟩ | ⟨hcol, hs⟩ <;> rcases ht with ⟨hcol', ht⟩ | ⟨hcol', ht⟩
  case inl.inr => exact absurd hcol' hcol
  case inr.inl => exact absurd hcol hcol'
  all_goals rw [hs, ht]
  · exact ⟨hj.src, hj.ob, hj.single, hj.w, hj.h, rfl, hj.y, rfl, hj.kind, hj.len, hj.words⟩
  · have hsingle : ∀ {a b : State}, Joined p a b → b.encSingleOpaque = a.encSingleOpaque := fun hab => by rw [hab.frame]
    have htoken := hj.runToken
    rw [hsingle hu, hsingle hv] at htoken
    refine ⟨hj.src, ?_, hj.single, hj.w, hj.h, rfl, rfl, rfl, rfl, rfl, fun _ => ?_⟩
    · show v.ob.pushAll _ = u.ob.pushAll _
      rw [hj.ob, htoken]
    · rw [runWords_of_runLen_zero rfl, runWords_of_runLen_zero rfl]

/-- What a pass emits depends on the raster and the parameter alone (R10, R22). -/
theorem encodePass_ob_of_single {r : Raster} {s s' t : State} (hw : encDimOk r.width) (hh : encDimOk r.height)
    (hsingle : s'.encSingleOpaque = s.encSingleOpaque) (ht : encodePass r s = .next t) :
    ∃ t', encodePass r s' = .next t' ∧ t'.ob = t.ob := by
  rw [encodePass, startEncode_of_encDimOk s hw hh] at ht
  rw [encodePass, startEncode_of_encDimOk s' hw hh]
  have hstart : SameEnc (encStart { s with src := r }) (encStart { s' with src := r }) :=
    ⟨rfl, rfl, hsingle, rfl, rfl, rfl, rfl, rfl, rfl, rfl, fun _ => by
      rw [runWords_of_runLen_zero rfl, runWords_of_runLen_zero rfl]⟩
  obtain ⟨t', ht', _, hsame⟩ := runEnc_simulates (R := fun s s' => EncPass s ∧ SameEnc s s')
    (fun s s' hR => hR.2.status)
    (fun s s' t hr hR hs => by
      obtain ⟨hpass, hsame⟩ := hR
      obtain ⟨_, hs'⟩ | ⟨p, hp, hs'⟩ := encStep_cases s <;> rw [hs'] at hs <;> cases hs
      refine ⟨Machine.takePixel p s', ?_, (hpass.takePixel hr).1, hsame.takePixel p hpass.run_max⟩
      rw [encStep, hsame.src, hsame.x, hsame.y, hp])
    ⟨EncPass.start hw hh, hstart⟩ ht
  exact ⟨t', ht', hsame.ob⟩

/-! ### Encoding what was decoded -/

/-- The encoder cannot tell a pixel from what it comes back as (R170, R173). -/
theorem samePixel_quant (p : Pixel) : SamePixel p (quant p) := by
  by_cases ha : p.a = 0
  · rw [quant, if_pos ha]
    exact ⟨⟨fun _ => rfl, fun _ => ha⟩, fun hne => absurd ha hne⟩
  · rw [quant, if_neg ha]
    have hopaque : (unpack555 (pack555 p)).a ≠ 0 := by rw [unpack555_a]; decide
    refine ⟨⟨fun h0 => absurd h0 ha, fun h0 => absurd h0 hopaque⟩, fun _ => ?_⟩
    rw [pack555_unpack555, pack555_and_7FFF]

/-- Settles O39: the decoded raster is the quantized one (`decode_encode_quant`), which the encoder cannot tell from the first. -/
theorem reencodeSameBytes : Obligations.ReencodeSameBytes := by
  intro r s s' s'' t u v hw hh hsingle ht hu hv
  obtain ⟨t', u', ht', _, hu', _, hwidth, hheight, hpix⟩ := decode_encode_quant s s' hw hh
  rw [ht] at ht'
  cases ht'
  rw [hu] at hu'
  cases hu'
  have hraster : SameRaster r u.img :=
    ⟨hwidth.symm, hheight.symm, fun x y p q hp hq => by
      rw [hpix x y p hp] at hq
      cases hq
      exact samePixel_quant p⟩
  obtain ⟨v', hv', hob⟩ := encodePass_ob_of_single hw hh hsingle ht
  rw [hraster.encodePass hv'] at hv
  cases hv
  exact congrArg Buffer.bytes hob

end Sys2Proof.Machine
end

section
/-! SUPPORT. The numbers of the error registers; their statement, settled. -/

namespace Sys2Proof.Machine

/-- Settles O18: each part is one row of the tables `codeOf`, `causeOf` and `infoOf`, and the opcode's row holds for every opcode. -/
theorem causeCodes : Obligations.CauseCodes := by
  have hopcode : ∀ op, codeOf (causeOf (.unknownOpcode op)) = 2 ∧ infoOf (.unknownOpcode op) = op := fun _ => ⟨rfl, rfl⟩
  exact ⟨rfl, rfl, hopcode, rfl, rfl, rfl, rfl, rfl, rfl, rfl⟩

end Sys2Proof.Machine
end

section
/-! SUPPORT. Both units right after reset, and how a pass of each starts; the statements about them, settled. -/

namespace Sys2Proof.Machine

/-! ### Reset -/

/-- Settles O24: the pending reset is the step, and after it no unit runs (`idleUnitsStay`). -/
theorem resetIdlesBothUnits : Obligations.ResetIdlesBothUnits := by
  intro s rest hhost
  refine ⟨hostReset { s with host := rest, epoch := s.epoch + 1 }, step_host hhost, rfl, rfl, rfl, rfl, fun hrest => ?_⟩
  have hidle : Status.idle ≠ .running := by decide
  exact (idleUnitsStay _ hrest).1 hidle hidle

/-- Settles O41: the memories are empty and both units `Idle`, where a unit's invariant asks for nothing but the bounds of R163. -/
theorem invAtReset : Obligations.InvAtReset := by
  have hmem : MemInv State.reset :=
    { ib := rfl, ob := rfl, img := rfl, src := rfl, host := fun op hop => absurd hop List.not_mem_nil }
  have hbounds : EncBounds State.reset :=
    { x_le := Nat.zero_le _, y_le := Nat.zero_le _, run_max := Nat.zero_le _
      kind_none := ⟨fun _ => rfl, fun _ => rfl⟩ }
  exact ⟨⟨hmem, trivial, trivial, hbounds⟩, imgInv_of_newBlank (w := 0) (h := 0) rfl⟩

/-! ### The start of a decode pass -/

/-- Fewer bytes than a header: the length is tested first (R80, R192). -/
theorem startDecode_of_length_lt {bytes : List Byte} (hlen : bytes.length < 8) (s : State) :
    startDecode bytes s = raiseDec .truncatedInput (decUndefined { s with ib := Buffer.ofBytes bytes }) := by
  have hparse : headerParse (Buffer.ofBytes bytes) = none := if_pos (by rwa [Buffer.ofBytes_len])
  simp only [startDecode, openDecode, hparse]

/-- A header that is complete decides by its dimensions alone (R82, R201). -/
theorem startDecode_of_headerParse {bytes : List Byte} {w h : Word}
    (hparse : headerParse (Buffer.ofBytes bytes) = some (w, h)) (s : State) :
    startDecode bytes s =
      if w = 0 ∨ h = 0 then raiseDec .invalidHeader (decUndefined { s with ib := Buffer.ofBytes bytes })
      else decStart w h { s with ib := Buffer.ofBytes bytes } := by
  simp only [startDecode, openDecode, hparse]

/-- After the header the pass is over exactly when no byte follows (R100, R115). -/
theorem decStatusAt_header (body : List Byte) :
    decStatusAt 8 (8 + body.length) = if body = [] then .done else .running := by
  cases body with
  | nil => rfl
  | cons b body => exact if_neg (by rw [List.length_cons]; omega)

/-- Settles O25: the frame is `startDecode_frame`; then `startDecode_of_length_lt` for a short buffer, and
`startDecode_of_headerParse` for a complete header. -/
theorem decodeStart : Obligations.DecodeStart := by
  intro s bytes t
  have hframe : t = { s with dec := t.dec, ib := Buffer.ofBytes bytes, img := t.img } := startDecode_frame bytes s
  refine ⟨by rw [hframe], by rw [hframe], by rw [hframe], by rw [hframe], by rw [hframe], by rw [hframe],
    by rw [hframe, Buffer.bytes_ofBytes], by rw [hframe, Buffer.ofBytes_len], fun hlen => ?_,
    fun b0 b1 b2 b3 b4 b5 b6 b7 body hbytes => ?_⟩
  · have ht : t = _ := startDecode_of_length_lt hlen s
    rw [ht]
    exact ⟨rfl, rfl, rfl⟩
  · have hparse := headerParse_cons b0 b1 b2 b3 b4 b5 b6 b7 body
    rw [← hbytes] at hparse
    have ht : t = _ := startDecode_of_headerParse hparse s
    refine ⟨fun hzero => ?_, fun hw hh => ?_⟩
    · rw [ht, if_pos hzero]
      exact ⟨rfl, rfl, rfl⟩
    · have hlen : (Buffer.ofBytes bytes).len = 8 + body.length := by
        rw [Buffer.ofBytes_len, hbytes, List.length_append]
        rfl
      rw [ht, if_neg (not_or.2 ⟨hw, hh⟩), decStart_dec, decStart_img, hlen, decStatusAt_header]
      exact ⟨rfl, rfl, rfl, fun x hx y hy => newBlank_getPixel hx hy⟩

/-! ### The start of an encode pass -/

theorem lo8_ofNat (n : Nat) : lo8 (BitVec.ofNat 16 n) = BitVec.ofNat 8 n := by
  apply BitVec.eq_of_toNat_eq
  rw [lo8_toNat, BitVec.toNat_ofNat, BitVec.toNat_ofNat]
  omega

theorem hi8_ofNat (n : Nat) : hi8 (BitVec.ofNat 16 n) = BitVec.ofNat 8 (n / 256) := by
  apply BitVec.eq_of_toNat_eq
  rw [hi8_toNat, BitVec.toNat_ofNat, BitVec.toNat_ofNat]
  omega

/-- The header of given dimensions, byte by byte (R43, R81). -/
theorem headerWrite_ofNat (w h : Nat) :
    headerWrite (BitVec.ofNat 16 w) (BitVec.ofNat 16 h) =
      [BitVec.ofNat 8 w, BitVec.ofNat 8 (w / 256), 0, 0, BitVec.ofNat 8 h, BitVec.ofNat 8 (h / 256), 0, 0] := by
  rw [headerWrite, lo8_ofNat, hi8_ofNat, lo8_ofNat, hi8_ofNat]

/-- A raster with a dimension the header cannot hold, or none, is rejected (R131). -/
theorem startEncode_of_not_encDimOk {r : Raster} (s : State) (h : ¬ (encDimOk r.width ∧ encDimOk r.height)) :
    startEncode r s = raiseEnc .invalidArgument (encUndefined { s with src := r }) := if_neg h

/-- Settles O26: the frame is `startEncode_frame`; the start check rejects the raster or lets the pass start. -/
theorem encodeStart : Obligations.EncodeStart := by
  intro s r t
  have hframe : t = { s with enc := t.enc, src := r, ob := t.ob } := startEncode_frame r s
  refine ⟨by rw [hframe], by rw [hframe], by rw [hframe], by rw [hframe], by rw [hframe], by rw [hframe], by rw [hframe],
    fun hbad => ?_, fun hw1 hw2 hh1 hh2 => ?_⟩
  · have hdims : ¬ (encDimOk r.width ∧ encDimOk r.height) := by
      simp only [encDimOk, Config.maxDim]
      omega
    have ht : t = _ := startEncode_of_not_encDimOk s hdims
    rw [ht]
    exact ⟨rfl, rfl, rfl⟩
  · have ht : t = encStart { s with src := r } :=
      startEncode_of_encDimOk s ⟨Nat.ne_of_gt hw1, hw2⟩ ⟨Nat.ne_of_gt hh1, hh2⟩
    rw [ht, encStart_enc, encStart_ob, Buffer.bytes_ofBytes, headerWrite_ofNat]
    exact ⟨rfl, rfl, rfl, rfl, rfl, rfl, rfl, rfl, Nat.mul_pos hw1 hh1, rfl⟩

end Sys2Proof.Machine
end

section
/-! SUPPORT. A well-formed buffer decodes without fault: token by token the decoder keeps the row the stream counts; its
statement, settled. -/

namespace Sys2Proof.Machine

/-- What is left of a well-formed stream after its first token is one too, from the row the token leaves (R207). -/
theorem streamOk_tail {w h col row : Nat} {tok : Token} {ts : List Token} (hok : streamOk w h col row (tok :: ts)) :
    ∃ col', streamOk w h col' (if isNewLine tok.instr = true then row + 1 else row) ts := by
  obtain ⟨_, _, _, htail⟩ := hok
  by_cases hnl : isNewLine tok.instr = true
  · rw [if_pos hnl] at htail ⊢
    exact ⟨_, htail⟩
  · rw [if_neg hnl] at htail ⊢
    exact ⟨_, htail⟩

/-- A legal pass with no byte left is over (R16, R115). -/
theorem DecPass.done_of_drop_eq_nil {s : State} (hd : DecPass s) (hb : s.ib.bytes.drop s.dec.off = []) :
    s.dec.status = .done := by
  have hle := List.drop_eq_nil_iff.1 hb
  rw [Buffer.bytes_length] at hle
  rw [hd.status, decStatusAt, if_pos (Nat.le_antisymm hd.off_le hle)]

/-- A legal pass with bytes left runs (R16). -/
theorem DecPass.running_of_drop_ne_nil {s : State} (hd : DecPass s) (hb : s.ib.bytes.drop s.dec.off ≠ []) :
    s.dec.status = .running := by
  rw [hd.status, decStatusAt, if_neg]
  intro hoff
  exact hb (List.drop_eq_nil_of_le (by rw [Buffer.bytes_length, hoff]))

/-- A legal pass over a well-formed stream from its own row on ends in `Done`, one step for each token: each is complete, its
opcode is valid, and if it draws its row is inside the image (R207 b, d). The column decides no error: it
wraps (R104). -/
theorem DecPass.runDec_tokens {ts : List Token} {col : Nat} {s : State} (hd : DecPass s)
    (hb : s.ib.bytes.drop s.dec.off = encodeTokens ts)
    (hok : streamOk s.dec.w.toNat s.dec.h.toNat col s.dec.y ts) :
    ∃ t, runDec ts.length s = .next t ∧ t.dec.status = .done := by
  induction ts generalizing s col with
  | nil => exact ⟨s, rfl, hd.done_of_drop_eq_nil hb⟩
  | cons tok ts ih =>
    have hb : s.ib.bytes.drop s.dec.off = encodeToken tok ++ encodeTokens ts := hb
    have hr : s.dec.status = .running := hd.running_of_drop_ne_nil (by simp [hb, encodeToken])
    have ⟨hwf, _, hrow, _⟩ := hok
    obtain ⟨u, hstep, hu⟩ := decStep_token hd hb hwf hrow
    have hrest : u.ib.bytes.drop u.dec.off = encodeTokens ts := by
      rw [hu.ib, hu.off, ← List.drop_drop, hb, List.drop_left]
    obtain ⟨col', htail⟩ := streamOk_tail hok
    rw [← hu.y, ← hu.w, ← hu.h] at htail
    obtain ⟨t, ht, hdone⟩ := ih hu.pass hrest htail
    exact ⟨t, by rw [List.length_cons, runDec_step hr hstep, ht], hdone⟩

/-- Settles O34: the header starts a legal pass at row 0 (`DecPass.start`), whose tokens it comes through
(`DecPass.runDec_tokens`); a pass has one end (`runDec_unique`). -/
theorem wellFormedBufferDecodes : Obligations.WellFormedBufferDecodes := by
  rintro bytes s ⟨w, h, r1, r2, ts, hw, hh, hbytes, hok⟩
  have hbytes : bytes = [lo8 w, hi8 w, lo8 r1, hi8 r1, lo8 h, hi8 h, lo8 r2, hi8 r2] ++ encodeTokens ts := hbytes
  have hparse : headerParse (Buffer.ofBytes bytes) = some (w, h) := by
    rw [hbytes, headerParse_cons, le16_lo8_hi8, le16_lo8_hi8]
  have hstart : startDecode bytes s = decStart w h { s with ib := Buffer.ofBytes bytes } := by
    rw [startDecode_of_headerParse hparse, if_neg (not_or.2 ⟨hw, hh⟩)]
  have hpass : DecPass (startDecode bytes s) := by
    rw [hstart]
    exact DecPass.start hw hh (headerParse_some_len hparse)
  have hstream : (startDecode bytes s).ib.bytes.drop (startDecode bytes s).dec.off = encodeTokens ts := by
    rw [hstart, decStart_ib, Buffer.bytes_ofBytes, hbytes]
    rfl
  have hok : streamOk (startDecode bytes s).dec.w.toNat (startDecode bytes s).dec.h.toNat 0 (startDecode bytes s).dec.y ts := by
    rw [hstart]
    exact hok
  obtain ⟨t, ht, hdone⟩ := hpass.runDec_tokens hstream hok
  obtain ⟨u, hu, _, hend⟩ := decodePass_ends bytes s
  obtain rfl : t = u := runDec_unique ht (by simp [hdone]) hu hend
  exact ⟨t, hu, hdone⟩

end Sys2Proof.Machine
end

section
/-! SUPPORT. A pending start: the start of an idle unit, and its refusal for a unit that is not `Idle`; the statement about
the next step, settled. -/

namespace Sys2Proof.Machine

theorem hostStep_startDecode_of_idle {s : State} (bytes : List Byte) (h : s.dec.status = .idle) :
    hostStep (.startDecode bytes) s = .next (startDecode bytes s) := if_pos h

theorem hostStep_startDecode_of_ne_idle {s : State} (bytes : List Byte) (h : s.dec.status ≠ .idle) :
    hostStep (.startDecode bytes) s = .refused .startNotIdle := if_neg h

theorem hostStep_startEncode_of_idle {s : State} (r : Raster) (h : s.enc.status = .idle) :
    hostStep (.startEncode r) s = .next (startEncode r s) := if_pos h

theorem hostStep_startEncode_of_ne_idle {s : State} (r : Raster) (h : s.enc.status ≠ .idle) :
    hostStep (.startEncode r) s = .refused .startNotIdle := if_neg h

/-- Settles O27: a pending operation is the next step (`step_host`); taking it off the list leaves both units as they are, so
the unit's `STATUS` in `s` decides between its start and the refusal. -/
theorem pendingStartIsTheStep : Obligations.PendingStartIsTheStep := by
  intro s rest
  refine ⟨fun bytes hhost => ?_, fun r hhost => ?_⟩ <;> rw [step_host hhost]
  · exact ⟨fun hidle => hostStep_startDecode_of_idle bytes hidle, fun hne => hostStep_startDecode_of_ne_idle bytes hne⟩
  · exact ⟨fun hidle => hostStep_startEncode_of_idle r hidle, fun hne => hostStep_startEncode_of_ne_idle r hne⟩

end Sys2Proof.Machine
end
